-- ==== Sys2Proof/Word.lean ====
section
/-! DEFINITION. The two word types of the block (spec/00_scope.md R10): a byte, and the 16-bit value of a
lookup-table entry or of a record. Every value is an unsigned bit vector; bit 0 is the least significant. -/

namespace Sys2Proof

/-- 8 bits, unsigned (R10). -/
abbrev Byte := BitVec 8

/-- 16 bits, unsigned (R10): a lookup-table entry or a record's value. -/
abbrev Half := BitVec 16

end Sys2Proof
end

