-- ==== Sys2Proof/Config.lean ====
section
/-! DEFINITION. The configuration: the parameters of spec/00_scope.md R9 with the fields of
spec/10_state.md R22. It is plain data, presented at reset and constant afterwards; nothing is assumed of a
field beyond what a rule states (R13). Default values and field encodings are in Machine/Parameters.lean. -/

namespace Sys2Proof

/-- The three checksum formulations CK_FORM chooses among (R9; spec/40_checksum.md R103). -/
inductive CkForm where
  | a
  | b
  | c
  deriving DecidableEq, Repr

/-- CHECKSUM_POLICY (R9). -/
inductive ChecksumPolicy where
  | enforce
  | bypass
  deriving DecidableEq, Repr

/-- RESERVED_TYPE_POLICY (R9). -/
inductive ReservedTypePolicy where
  | accept
  | reject
  deriving DecidableEq, Repr

/-- FF_RECORD_POLICY (R9). -/
inductive FfRecordPolicy where
  | verbatim
  | reject
  deriving DecidableEq, Repr

/-- The configuration tuple of R22. `lut` is a list because a table of any size can be presented and R102 (a)
then refuses it; `ckForm` is the raw two-bit field because its encoding 3 can be presented and is illegal. -/
structure Configuration where
  h1 : Byte
  h2 : Byte
  lut : List Half
  ckForm : BitVec 2
  checksumPolicy : ChecksumPolicy
  reservedTypePolicy : ReservedTypePolicy
  ffRecordPolicy : FfRecordPolicy
  deriving DecidableEq, Repr

end Sys2Proof
end

