-- ==== Sys2Proof/Machine/Parameters.lean ====
section
/-! DEFINITION. The fixed sizes of spec/00_scope.md R8, the default parameter values of R9, the generator of the
default lookup table (spec/40_checksum.md R101), the admission property of a table (R102), and the field encodings
of spec/10_state.md R22. -/

namespace Sys2Proof.Machine

/-! Sizes and codes the source fixes (R8). -/

def frameLen : Nat := 17
def ckInputLen : Nat := 15
def maxRecords : Nat := 4
def lutEntries : Nat := 256
def unusedIndex : Byte := 0xFF
def typeData : Byte := 0x00
def typeStatus : Byte := 0x02

/-! The lookup table. -/

/-- The reflected CCITT polynomial (R101). -/
def defaultPoly : Half := 0x8408

/-- One step of the generator of R101, for a reflected polynomial. -/
def lutGenStep (poly t : Half) : Half :=
  if t.getLsbD 0 then (t >>> 1) ^^^ poly else t >>> 1

/-- Entry `i` of a generated table: eight steps from `i` (R101). -/
def lutGenEntry (poly : Half) (i : Nat) : Half :=
  (List.range 8).foldl (fun t _ => lutGenStep poly t) (BitVec.ofNat 16 i)

/-- The table the generator of R101 makes; `defaultLut` is the one for `defaultPoly`. -/
def generatedLut (poly : Half) : List Half := (List.range lutEntries).map (lutGenEntry poly)

/-- The default table, entry `16 * row + column`, as R101 prints it. -/
def defaultLutRows : List (List Half) := [
  [ 0x0000, 0x1189, 0x2312, 0x329B, 0x4624, 0x57AD, 0x6536, 0x74BF,
    0x8C48, 0x9DC1, 0xAF5A, 0xBED3, 0xCA6C, 0xDBE5, 0xE97E, 0xF8F7],
  [ 0x1081, 0x0108, 0x3393, 0x221A, 0x56A5, 0x472C, 0x75B7, 0x643E,
    0x9CC9, 0x8D40, 0xBFDB, 0xAE52, 0xDAED, 0xCB64, 0xF9FF, 0xE876],
  [ 0x2102, 0x308B, 0x0210, 0x1399, 0x6726, 0x76AF, 0x4434, 0x55BD,
    0xAD4A, 0xBCC3, 0x8E58, 0x9FD1, 0xEB6E, 0xFAE7, 0xC87C, 0xD9F5],
  [ 0x3183, 0x200A, 0x1291, 0x0318, 0x77A7, 0x662E, 0x54B5, 0x453C,
    0xBDCB, 0xAC42, 0x9ED9, 0x8F50, 0xFBEF, 0xEA66, 0xD8FD, 0xC974],
  [ 0x4204, 0x538D, 0x6116, 0x709F, 0x0420, 0x15A9, 0x2732, 0x36BB,
    0xCE4C, 0xDFC5, 0xED5E, 0xFCD7, 0x8868, 0x99E1, 0xAB7A, 0xBAF3],
  [ 0x5285, 0x430C, 0x7197, 0x601E, 0x14A1, 0x0528, 0x37B3, 0x263A,
    0xDECD, 0xCF44, 0xFDDF, 0xEC56, 0x98E9, 0x8960, 0xBBFB, 0xAA72],
  [ 0x6306, 0x728F, 0x4014, 0x519D, 0x2522, 0x34AB, 0x0630, 0x17B9,
    0xEF4E, 0xFEC7, 0xCC5C, 0xDDD5, 0xA96A, 0xB8E3, 0x8A78, 0x9BF1],
  [ 0x7387, 0x620E, 0x5095, 0x411C, 0x35A3, 0x242A, 0x16B1, 0x0738,
    0xFFCF, 0xEE46, 0xDCDD, 0xCD54, 0xB9EB, 0xA862, 0x9AF9, 0x8B70],
  [ 0x8408, 0x9581, 0xA71A, 0xB693, 0xC22C, 0xD3A5, 0xE13E, 0xF0B7,
    0x0840, 0x19C9, 0x2B52, 0x3ADB, 0x4E64, 0x5FED, 0x6D76, 0x7CFF],
  [ 0x9489, 0x8500, 0xB79B, 0xA612, 0xD2AD, 0xC324, 0xF1BF, 0xE036,
    0x18C1, 0x0948, 0x3BD3, 0x2A5A, 0x5EE5, 0x4F6C, 0x7DF7, 0x6C7E],
  [ 0xA50A, 0xB483, 0x8618, 0x9791, 0xE32E, 0xF2A7, 0xC03C, 0xD1B5,
    0x2942, 0x38CB, 0x0A50, 0x1BD9, 0x6F66, 0x7EEF, 0x4C74, 0x5DFD],
  [ 0xB58B, 0xA402, 0x9699, 0x8710, 0xF3AF, 0xE226, 0xD0BD, 0xC134,
    0x39C3, 0x284A, 0x1AD1, 0x0B58, 0x7FE7, 0x6E6E, 0x5CF5, 0x4D7C],
  [ 0xC60C, 0xD785, 0xE51E, 0xF497, 0x8028, 0x91A1, 0xA33A, 0xB2B3,
    0x4A44, 0x5BCD, 0x6956, 0x78DF, 0x0C60, 0x1DE9, 0x2F72, 0x3EFB],
  [ 0xD68D, 0xC704, 0xF59F, 0xE416, 0x90A9, 0x8120, 0xB3BB, 0xA232,
    0x5AC5, 0x4B4C, 0x79D7, 0x685E, 0x1CE1, 0x0D68, 0x3FF3, 0x2E7A],
  [ 0xE70E, 0xF687, 0xC41C, 0xD595, 0xA12A, 0xB0A3, 0x8238, 0x93B1,
    0x6B46, 0x7ACF, 0x4854, 0x59DD, 0x2D62, 0x3CEB, 0x0E70, 0x1FF9],
  [ 0xF78F, 0xE606, 0xD49D, 0xC514, 0xB1AB, 0xA022, 0x92B9, 0x8330,
    0x7BC7, 0x6A4E, 0x58D5, 0x495C, 0x3DE3, 0x2C6A, 0x1EF1, 0x0F78]]

/-- The default table (R101). -/
def defaultLut : List Half := defaultLutRows.flatten

/-- The named property of R102: 256 entries, entry 0 zero, linear over GF(2). -/
def LutWellFormed (lut : List Half) : Prop :=
  lut.length = lutEntries ∧ lut.getD 0 0 = 0 ∧
    ∀ i j : Nat, i < lutEntries → j < lutEntries →
      lut.getD (i ^^^ j) 0 = lut.getD i 0 ^^^ lut.getD j 0

/-- The table of `2 ^ k` entries that `k` entries at the powers of two generate over GF(2), the highest first: each
doubles the table below it by adding itself. -/
def spanTable : List Half → List Half
  | [] => [0]
  | top :: rest => spanTable rest ++ (spanTable rest).map (· ^^^ top)

/-- The entries of a table at its `k` powers of two, the highest first. -/
def basisOf (lut : List Half) : Nat → List Half
  | 0 => []
  | k + 1 => lut.getD (2 ^ k) 0 :: basisOf lut k

/-- `LutWellFormed` as a test that runs in 255 additions: the table is the one its entries at 1, 2, 4, ..., 128
generate. Laws/Parameters.lean proves the two the same (log 10). -/
def lutAdmitted (lut : List Half) : Bool := lut == spanTable (basisOf lut 8)

/-! Field encodings (R22). -/

/-- CK_FORM: A = 0, B = 1, C = 2; 3 is illegal (R22). -/
def formOfBits (v : BitVec 2) : Option CkForm :=
  if v = 0 then some .a else if v = 1 then some .b else if v = 2 then some .c else none

/-- The field encoding of a form (R22). -/
def formBits : CkForm → BitVec 2
  | .a => 0
  | .b => 1
  | .c => 2

/-- CHECKSUM_POLICY: Enforce = 0, Bypass = 1 (R22). -/
def checksumPolicyOfBit (v : BitVec 1) : ChecksumPolicy := if v = 0 then .enforce else .bypass

/-- The field encoding of a checksum policy (R22). -/
def checksumPolicyBit : ChecksumPolicy → BitVec 1
  | .enforce => 0
  | .bypass => 1

/-- RESERVED_TYPE_POLICY: Accept = 0, Reject = 1 (R22). -/
def reservedTypePolicyOfBit (v : BitVec 1) : ReservedTypePolicy := if v = 0 then .accept else .reject

/-- The field encoding of a reserved-type policy (R22). -/
def reservedTypePolicyBit : ReservedTypePolicy → BitVec 1
  | .accept => 0
  | .reject => 1

/-- FF_RECORD_POLICY: Verbatim = 0, Reject = 1 (R22). -/
def ffRecordPolicyOfBit (v : BitVec 1) : FfRecordPolicy := if v = 0 then .verbatim else .reject

/-- The field encoding of an 0xFF-record policy (R22). -/
def ffRecordPolicyBit : FfRecordPolicy → BitVec 1
  | .verbatim => 0
  | .reject => 1

/-! Whole configurations. -/

/-- The form a configuration chooses, none for the illegal encoding 3. -/
def configForm (c : Configuration) : Option CkForm := formOfBits c.ckForm

/-- A configuration presented as its field encodings (R22): the policies as single bits. -/
def configOfFields (h1 h2 : Byte) (lut : List Half) (ckForm : BitVec 2)
    (checksumPolicy reservedTypePolicy ffRecordPolicy : BitVec 1) : Configuration where
  h1 := h1
  h2 := h2
  lut := lut
  ckForm := ckForm
  checksumPolicy := checksumPolicyOfBit checksumPolicy
  reservedTypePolicy := reservedTypePolicyOfBit reservedTypePolicy
  ffRecordPolicy := ffRecordPolicyOfBit ffRecordPolicy

/-- The configuration is legal: the table is admitted and CK_FORM is not 3 (R27; spec/70 R203). -/
def configLegal (c : Configuration) : Bool := lutAdmitted c.lut && (configForm c).isSome

/-- The default configuration (R9; spec/70_reset_and_hazards.md R204). -/
def defaultConfig : Configuration where
  h1 := 0xCA
  h2 := 0x35
  lut := defaultLut
  ckForm := formBits .a
  checksumPolicy := .enforce
  reservedTypePolicy := .accept
  ffRecordPolicy := .verbatim

end Sys2Proof.Machine
end

