-- ==== Sys2Proof/Syntax.lean ====
section
/-! DEFINITION. The commands of the command port as syntax: one constructor of `Instr` per row of
spec/opcode_table.json (spec/30_encoding.md R70 to R75), with the records they carry. -/

namespace Sys2Proof

/-- One index/value pair (spec/41_frame_codec.md R130). -/
structure Record where
  index : Byte
  value : Half
  deriving DecidableEq, Repr

/-- A logical message: a raw type byte and an ordered list of records (R130). -/
structure Message where
  type : Byte
  records : List Record
  deriving DecidableEq, Repr

/-- The five opcodes of R70. -/
inductive Opcode where
  | cksum
  | verify
  | encode
  | decode
  | lutRead
  deriving DecidableEq, Repr

/-- A command with its operands. ENCODE's count byte is the length of `records`, DECODE's length operand the
length of `buffer`. -/
inductive Instr where
  /-- CKSUM (R71): frame offsets 0 to 14. -/
  | cksum (body : List Byte)
  /-- VERIFY (R72): frame offsets 0 to 16. -/
  | verify (frame : List Byte)
  /-- ENCODE (R73): type byte and records. -/
  | encode (type : Byte) (records : List Record)
  /-- DECODE (R74): the buffer. -/
  | decode (buffer : List Byte)
  /-- LUT_READ (R75): the table index. -/
  | lutRead (index : Byte)
  deriving DecidableEq, Repr

end Sys2Proof
end

