-- ==== Sys2Proof/Machine/Operands.lean ====
section
/-! DEFINITION. Operand forms: bytes of a 16-bit value and back (spec/20_memory.md R42 to R45), record packing and
unpacking (spec/41_frame_codec.md R131, R132), and the slots of a frame (spec/30_encoding.md R61, R62, R66). -/

namespace Sys2Proof.Machine

/-- `hi ++ lo`: the 16-bit value with `hi` in the more significant position (R10). -/
def joinBytes (hi lo : Byte) : Half := hi ++ lo

/-- `v[15:8]` (R10); for a table entry, TABLE_HIGH (R28). -/
def highByte (v : Half) : Byte := v.extractLsb' 8 8

/-- `v[7:0]` (R10); for a table entry, TABLE_LOW (R28). -/
def lowByte (v : Half) : Byte := v.extractLsb' 0 8

/-- The byte at offset `k` of a byte string (R11), for an offset the string has. -/
def byteAt (s : List Byte) (k : Nat) : Byte := s.getD k 0

/-- PACK (R131): index, value high, value low. -/
def pack (r : Record) : List Byte := [r.index, highByte r.value, lowByte r.value]

/-- The padding record of an unused slot (R133). -/
def unusedRecord : Record := ⟨unusedIndex, 0⟩

/-- UNPACK (R132) of three bytes: none is `Unused`, whatever the value bytes are. -/
def unpack (index hi lo : Byte) : Option Record :=
  if index = unusedIndex then none else some ⟨index, joinBytes hi lo⟩

/-- UNPACK of slot `k` of a frame, at offsets 3+3k to 5+3k (R62, R66). -/
def slotRecord (f : List Byte) (k : Nat) : Option Record :=
  unpack (byteAt f (3 + 3 * k)) (byteAt f (4 + 3 * k)) (byteAt f (5 + 3 * k))

/-- The records a string of 3-byte groups holds, ENCODE's record operands (R73). -/
def recordsOf : List Byte → List Record
  | index :: hi :: lo :: rest => ⟨index, joinBytes hi lo⟩ :: recordsOf rest
  | _ => []

end Sys2Proof.Machine
end

