-- ==== Sys2Proof/WellFormed.lean ====
section
/-! DEFINITION. Which terms of `Instr` are commands a host can present (spec/30_encoding.md R70 to R75): the
operand counts of CKSUM and VERIFY, ENCODE's one-byte count and DECODE's two-byte length. -/

namespace Sys2Proof

/-- The operands fit the command's layout (R71 to R75). -/
def Instr.wf : Instr → Bool
  | .cksum body => body.length == Machine.ckInputLen
  | .verify frame => frame.length == Machine.frameLen
  | .encode _ records => decide (records.length < 2 ^ 8)
  | .decode buffer => decide (buffer.length < 2 ^ 16)
  | .lutRead _ => true

end Sys2Proof
end

