-- ==== Sys2Proof/Decode.lean ====
section
/-! DEFINITION. The decoder of command bytes, total on every byte string (spec/30_encoding.md R70 to R79), and after
it the encoder written from the same layouts. -/

namespace Sys2Proof

/-- Why a byte string is not a command. -/
inductive Rejection where
  /-- The opcode is 0x00 or 0x06 to 0xFF (R77). -/
  | illegal
  /-- The string is empty, or its length does not fit its opcode (R78). -/
  | malformed
  deriving DecidableEq, Repr

/-- The opcode table (R70); none for the opcodes of R77. -/
def opcodeOfByte (b : Byte) : Option Opcode :=
  if b = 0x01 then some .cksum
  else if b = 0x02 then some .verify
  else if b = 0x03 then some .encode
  else if b = 0x04 then some .decode
  else if b = 0x05 then some .lutRead
  else none

/-- The opcode byte of an opcode (R70). -/
def opcodeByte : Opcode → Byte
  | .cksum => 0x01
  | .verify => 0x02
  | .encode => 0x03
  | .decode => 0x04
  | .lutRead => 0x05

/-- The total length the first bytes of a command ask for (the `need` of R79). -/
def cmdNeed : List Byte → Except Rejection Nat
  | [] => .error .malformed
  | op :: operands =>
    match opcodeOfByte op, operands with
    | none, _ => .error .illegal
    | some .cksum, _ => .ok 16
    | some .verify, _ => .ok 18
    | some .encode, _ :: n :: _ => .ok (3 + 3 * n.toNat)
    | some .encode, _ => .error .malformed
    | some .decode, hi :: lo :: _ => .ok (3 + (Machine.joinBytes hi lo).toNat)
    | some .decode, _ => .error .malformed
    | some .lutRead, _ => .ok 2

/-- cmdLen (R79): the length of a well-formed command, or why the string is none. -/
def cmdLen (cmd : List Byte) : Except Rejection Nat :=
  match cmdNeed cmd with
  | .error e => .error e
  | .ok need => if cmd.length = need then .ok need else .error .malformed

/-- The command a byte string is, with its operands pulled out of the layouts of R71 to R75, or its rejection. -/
def decode : List Byte → Except Rejection Instr
  | [] => .error .malformed
  | op :: operands =>
    match opcodeOfByte op, operands with
    | none, _ => .error .illegal
    | some .cksum, body =>
      if body.length = Machine.ckInputLen then .ok (.cksum body) else .error .malformed
    | some .verify, frame =>
      if frame.length = Machine.frameLen then .ok (.verify frame) else .error .malformed
    | some .encode, type :: n :: groups =>
      if groups.length = 3 * n.toNat then .ok (.encode type (Machine.recordsOf groups)) else .error .malformed
    | some .encode, _ => .error .malformed
    | some .decode, hi :: lo :: buffer =>
      if buffer.length = (Machine.joinBytes hi lo).toNat then .ok (.decode buffer) else .error .malformed
    | some .decode, _ => .error .malformed
    | some .lutRead, [index] => .ok (.lutRead index)
    | some .lutRead, _ => .error .malformed

/-- The bytes of a command (R71 to R75). -/
def encode : Instr → List Byte
  | .cksum body => opcodeByte .cksum :: body
  | .verify frame => opcodeByte .verify :: frame
  | .encode type records =>
    opcodeByte .encode :: type :: BitVec.ofNat 8 records.length :: records.flatMap Machine.pack
  | .decode buffer =>
    opcodeByte .decode :: Machine.highByte (BitVec.ofNat 16 buffer.length)
      :: Machine.lowByte (BitVec.ofNat 16 buffer.length) :: buffer
  | .lutRead index => [opcodeByte .lutRead, index]

/-- The command string an opcode-table word stands for: its `nbits / 8` bytes, the first in bits 7 to 0, followed by
zeros up to the length the command's own first bytes ask for (R79). -/
def tableBytes (nbits w : Nat) : List Byte :=
  let byte := fun k => if 8 * k < nbits then BitVec.ofNat 8 (w >>> (8 * k)) else 0
  let need :=
    match cmdNeed ((List.range 3).map byte) with
    | .ok n => n
    | .error _ => 0
  (List.range (max need (nbits / 8))).map byte

/-- The instruction the decoder reads from an opcode-table word. -/
def decodeTableWord (nbits w : Nat) : Option Instr :=
  match decode (tableBytes nbits w) with
  | .ok i => some i
  | .error _ => none

end Sys2Proof
end

