-- ==== Sys2Proof/Machine/Flags.lean ====
section
/-! DEFINITION. The block has no condition codes and no status register (spec/10_state.md R26): a command's outcome
is the status byte of its own response. The codes are those of spec/60_exceptions.md R171. -/

namespace Sys2Proof.Machine

/-- The outcomes a response can report (R171). -/
inductive Status where
  | ok
  | tooManyRecords
  | badLength
  | badHeader
  | checksumMismatch
  | illegalCommand
  | malformedCommand
  | reservedType
  | unusedSlotValue
  | fatal
  deriving DecidableEq, Repr

/-- The status byte of an outcome (R171). -/
def statusCode : Status → Byte
  | .ok => 0x00
  | .tooManyRecords => 0x01
  | .badLength => 0x02
  | .badHeader => 0x03
  | .checksumMismatch => 0x04
  | .illegalCommand => 0x05
  | .malformedCommand => 0x06
  | .reservedType => 0x07
  | .unusedSlotValue => 0x08
  | .fatal => 0xFF

/-- Every outcome, in the order of R171's table. -/
def allStatuses : List Status :=
  [.ok, .tooManyRecords, .badLength, .badHeader, .checksumMismatch, .illegalCommand, .malformedCommand,
    .reservedType, .unusedSlotValue, .fatal]

/-- The outcome a status byte reports; none for the codes R171 says are never produced. -/
def statusOfCode (b : Byte) : Option Status := allStatuses.find? (statusCode · == b)

/-- VERIFY's result byte: 0x01 if the frame verifies, 0x00 if not (spec/30_encoding.md R76). -/
def verdictByte (verified : Bool) : Byte := if verified then 0x01 else 0x00

end Sys2Proof.Machine
end

