-- ==== Sys2Proof/Machine/State.lean ====
section
/-! DEFINITION. The block's state (spec/10_state.md R20, R29), the reasons a step can stop, and the state after reset
(R31; spec/70_reset_and_hazards.md R200 to R205). -/

namespace Sys2Proof.Machine

/-- MODE (R27). -/
inductive Mode where
  | ready
  | fatal
  deriving DecidableEq, Repr

/-- The source's ChecksumState (R23) with the position of the fold (R25). -/
structure ChecksumState where
  c1 : Byte
  c0 : Byte
  pos : Nat
  deriving DecidableEq, Repr

/-- Everything the spec gives the block: the configuration with its table, the accumulator and position, MODE, and the
two ports (R20, R29). A port is empty or holds one byte string. -/
structure State where
  config : Configuration
  acc : ChecksumState
  mode : Mode
  cmdPort : Option (List Byte)
  respPort : Option (List Byte)
  deriving DecidableEq, Repr

/-- Why the machine stops. -/
inductive Fault where
  /-- Raised by the guard every command's meaning starts with (`answering`) in a state with MODE = READY and
  CK_FORM = 3. Reset never makes that state and no step reaches it (R27, R203). Safe: the machine stops where the spec
  gives no meaning (log 6). -/
  | inconsistentMode
  deriving DecidableEq, Repr

/-- Why an instruction has no meaning. -/
inductive Refusal where
  /-- Raised by an arm of exec whose instruction has no meaning yet; no arm raises it in this model. Safe. -/
  | notModelled (mnemonic : String)
  deriving DecidableEq, Repr

/-- MODE as reset computes it (R27, R203). -/
def modeAtReset (c : Configuration) : Mode := if configLegal c then .ready else .fatal

/-- Reset with a presented configuration (R31, R200, R203 to R205): one event with no partial form. The accumulator and
position are unspecified there (R202); the zeros are a DESIGN CHOICE (log 1). -/
def State.resetWith (c : Configuration) : State where
  config := c
  acc := ⟨0, 0, 0⟩
  mode := modeAtReset c
  cmdPort := none
  respPort := none

/-- The machine right after reset with the default configuration (R204; log 2). -/
def State.reset : State := State.resetWith defaultConfig

end Sys2Proof.Machine
end

