-- ==== Sys2Proof/Machine/Ops.lean ====
section
/-! DEFINITION. The named operations the commands share: reading the table, accepting a command, answering it, raising an
error (spec/00_scope.md R12), and the guard common to every command (spec/60_exceptions.md R180). -/

namespace Sys2Proof.Machine

/-- LutRead (R12): the 16-bit entry at an 8-bit index (spec/10_state.md R28). An admitted table has all 256. -/
def lutRead (c : Configuration) (index : Byte) : Half := c.lut.getD index.toNat 0

/-- The port takes the presented command: the command port is empty again (spec/10_state.md R29). -/
def accept (s : State) : State := { s with cmdPort := none }

/-- respond(code, payload) (R12): the response port holds the status byte and the payload. -/
def respond (code : Status) (payload : List Byte) (s : State) : State :=
  { s with respPort := some (statusCode code :: payload) }

/-- raise E (R12): the command ends with E's status and nothing else. This is all that taking an error does: no state is
saved, no mode changes, no control is transferred, and there is nothing to return from (spec/60 R170, R181, R182). -/
def raise (e : Status) (s : State) : State := respond e [] s

/-- The accumulator and position a checksum computation leaves (spec/10_state.md R23, R25). -/
def setAcc (acc : ChecksumState) (s : State) : State := { s with acc := acc }

/-- What every command does before its own work (R180): in MODE FATAL it answers FATAL and computes nothing (R177);
operands that fit no command of its opcode are MALFORMED_COMMAND (R78, log 5); else `body` runs with the form in force.
READY with CK_FORM = 3 is no state of the block (R27) and stops (log 6). -/
def answering (i : Instr) (s : State) (body : CkForm → State) :
    Host.Outcome State Fault Refusal :=
  match s.mode, configForm s.config with
  | .fatal, _ => .next (raise .fatal s)
  | .ready, none => .fault .inconsistentMode
  | .ready, some form => .next (if i.wf then body form else raise .malformedCommand s)

end Sys2Proof.Machine
end

