-- ==== Sys2Proof/Machine/Checksum.lean ====
section
/-! DEFINITION. The ChecksumEngine (spec/40_checksum.md): seed, fold and result (R103 to R105), the checksum and verify
functions (R106, R107), and the commands LUT_READ, CKSUM and VERIFY (R110 to R112). -/

namespace Sys2Proof.Machine

/-- The seed step (R103): it reads the configuration's H1 and H2, never the input's own bytes. -/
def seed (c : Configuration) : CkForm → ChecksumState
  | .a => ⟨c.h1, c.h2, 0⟩
  | .b => ⟨0x00, 0x00, 0⟩
  | .c => ⟨c.h1, c.h2, 2⟩

/-- The fold step (R104): both new bytes are computed from the old ones. -/
def fold (c : Configuration) (acc : ChecksumState) (b : Byte) : ChecksumState :=
  let e := lutRead c (acc.c1 ^^^ b)
  ⟨acc.c0 ^^^ lowByte e, highByte e, acc.pos + 1⟩

/-- The accumulator at the end of a computation over `b`: seed, then fold from the seed's position on (R106). -/
def ckState (c : Configuration) (form : CkForm) (b : List Byte) : ChecksumState :=
  (b.drop (seed c form).pos).foldl (fold c) (seed c form)

/-- CK (R105, R106): the pair (c1, c0). -/
def ck (c : Configuration) (form : CkForm) (b : List Byte) : Byte × Byte :=
  ((ckState c form b).c1, (ckState c form b).c0)

/-- VF (R107): recompute over offsets 0 to 14 and compare with offsets 15 and 16, byte for byte (spec/20 R43). -/
def vf (c : Configuration) (form : CkForm) (f : List Byte) : Bool :=
  ck c form (f.take ckInputLen) == (byteAt f 15, byteAt f 16)

/-- LUT_READ (R110): the high byte of the entry, then the low byte. -/
def execLutRead (index : Byte) (s : State) : Host.Outcome State Fault Refusal :=
  answering (.lutRead index) s fun _ =>
    respond .ok [highByte (lutRead s.config index), lowByte (lutRead s.config index)] s

/-- CKSUM (R111): no header check is made. -/
def execCksum (body : List Byte) (s : State) : Host.Outcome State Fault Refusal :=
  answering (.cksum body) s fun form =>
    respond .ok [(ck s.config form body).1, (ck s.config form body).2]
      (setAcc (ckState s.config form body) s)

/-- VERIFY (R112): a failed check is the result 0x00, not an error; CHECKSUM_POLICY plays no part. -/
def execVerify (frame : List Byte) (s : State) : Host.Outcome State Fault Refusal :=
  answering (.verify frame) s fun form =>
    respond .ok [verdictByte (vf s.config form frame)]
      (setAcc (ckState s.config form (frame.take ckInputLen)) s)

end Sys2Proof.Machine
end

