-- ==== Sys2Proof/Machine/Codec.lean ====
section
/-! DEFINITION. The FrameCodec (spec/41_frame_codec.md): the encode and decode functions (R134, R135) and the commands
ENCODE and DECODE (R140, R150). -/

namespace Sys2Proof.Machine

/-- A type byte the source reserves (spec/30_encoding.md R63). -/
def reservedType (type : Byte) : Bool := type != typeData && type != typeStatus

/-- A record that breaks the invariant of an unused slot: index 0xFF with a value (R134). -/
def unusedWithValue (r : Record) : Bool := r.index == unusedIndex && r.value != 0

/-- The checks of EN in their order (R134): the first that fails. -/
def encodeError (c : Configuration) (type : Byte) (records : List Record) : Option Status :=
  if maxRecords < records.length then some .tooManyRecords
  else if c.reservedTypePolicy = .reject ∧ reservedType type then some .reservedType
  else if c.ffRecordPolicy = .reject ∧ records.any unusedWithValue then some .unusedSlotValue
  else none

/-- Offsets 0 to 14 of the frame EN builds (R133, R134): header, type, the records in slot order, padding. -/
def frameBody (c : Configuration) (type : Byte) (records : List Record) : List Byte :=
  c.h1 :: c.h2 :: type
    :: (records ++ List.replicate (maxRecords - records.length) unusedRecord).flatMap pack

/-- EN (R134): the 17 frame bytes, or the first failed check. -/
def en (c : Configuration) (form : CkForm) (type : Byte) (records : List Record) :
    Except Status (List Byte) :=
  match encodeError c type records with
  | some e => .error e
  | none =>
    let body := frameBody c type records
    .ok (body ++ [(ck c form body).1, (ck c form body).2])

/-- The buffer has the length of a frame and the configured header (the first two checks of R135). -/
def headerOk (c : Configuration) (buf : List Byte) : Bool :=
  byteAt buf 0 == c.h1 && byteAt buf 1 == c.h2

/-- The checks of DE in their order (R135): the first that fails. Bypass skips the checksum check only. -/
def decodeError (c : Configuration) (form : CkForm) (buf : List Byte) : Option Status :=
  if buf.length ≠ frameLen then some .badLength
  else if ¬ headerOk c buf then some .badHeader
  else if c.checksumPolicy = .enforce ∧ ¬ vf c form buf then some .checksumMismatch
  else none

/-- The message of a frame (R133, R135): its type byte and its used slots in slot order. -/
def frameMessage (buf : List Byte) : Message :=
  ⟨byteAt buf 2, (List.range maxRecords).filterMap (slotRecord buf)⟩

/-- DE (R135): the message, or the first failed check. -/
def de (c : Configuration) (form : CkForm) (buf : List Byte) : Except Status Message :=
  match decodeError c form buf with
  | some e => .error e
  | none => .ok (frameMessage buf)

/-- DE computes a checksum only when the length and header checks pass, under Enforce (R135). -/
def decodeFolds (c : Configuration) (buf : List Byte) : Bool :=
  buf.length == frameLen && headerOk c buf && c.checksumPolicy == .enforce

/-- DECODE's payload (spec/30_encoding.md R76): type, count, packed records. -/
def messageBytes (m : Message) : List Byte :=
  m.type :: BitVec.ofNat 8 m.records.length :: m.records.flatMap pack

/-- ENCODE (R140): the frame, or the first error of R134; the accumulator is written only when EN reaches CK. -/
def execEncode (type : Byte) (records : List Record) (s : State) :
    Host.Outcome State Fault Refusal :=
  answering (.encode type records) s fun form =>
    match en s.config form type records with
    | .error e => raise e s
    | .ok f => respond .ok f (setAcc (ckState s.config form (frameBody s.config type records)) s)

/-- DECODE (R150): the message, or the first error of R135; the accumulator is written only when DE reaches VF. -/
def execDecode (buffer : List Byte) (s : State) : Host.Outcome State Fault Refusal :=
  answering (.decode buffer) s fun form =>
    let t :=
      if decodeFolds s.config buffer then setAcc (ckState s.config form (buffer.take ckInputLen)) s else s
    match de s.config form buffer with
    | .error e => raise e t
    | .ok m => respond .ok (messageBytes m) t

end Sys2Proof.Machine
end

