-- ==== Sys2Proof/Machine/Dispatch.lean ====
section
/-! DEFINITION. exec: one arm per constructor of Instr, each one direct call of that command's meaning. -/

namespace Sys2Proof.Machine

def exec (i : Instr) (s : State) : Host.Outcome State Fault Refusal :=
  match i with
  | .cksum body => Sys2Proof.Machine.execCksum body s
  | .verify frame => Sys2Proof.Machine.execVerify frame s
  | .encode type records => Sys2Proof.Machine.execEncode type records s
  | .decode buffer => Sys2Proof.Machine.execDecode buffer s
  | .lutRead index => Sys2Proof.Machine.execLutRead index s

end Sys2Proof.Machine
end

