-- ==== Sys2Proof/Machine/Command.lean ====
section
/-! DEFINITION. The block's one step at the level of the command port: a presented command is accepted, executed and
answered whole (spec/20_memory.md R49); with nothing to accept the block waits (spec/70 R205). -/

namespace Sys2Proof.Machine

/-- Execute accepted command bytes, with the priority of spec/60_exceptions.md R180: FATAL before anything is read
(R177), then ILLEGAL_COMMAND (R173), then MALFORMED_COMMAND (R174), then the command itself. -/
def runCommand (cmd : List Byte) (s : State) : Host.Outcome State Fault Refusal :=
  match s.mode with
  | .fatal => .next (raise .fatal s)
  | .ready =>
    match decode cmd with
    | .error .illegal => .next (raise .illegalCommand s)
    | .error .malformed => .next (raise .malformedCommand s)
    | .ok i => exec i s

/-- One step of the block. A command is accepted only when the response port is empty (R29, D15); otherwise the block
waits for the host and nothing changes (log 3, log 4). -/
def blockStep (s : State) : Host.Outcome State Fault Refusal :=
  match s.cmdPort, s.respPort with
  | some cmd, none => runCommand cmd (accept s)
  | _, _ => .next s

/-- Command bytes placed where the block's next step takes them: presented on the command port, with the response port
empty (R29; log 8). -/
def placeCommand (cmd : List Byte) (s : State) : State :=
  { s with cmdPort := some cmd, respPort := none }

end Sys2Proof.Machine
end

