-- ==== Sys2Proof/Machine/Step.lean ====
section
/-! DEFINITION. The step of the machine and the placing of one opcode-table word; both only call Machine/Command.lean. -/

namespace Sys2Proof.Machine

/-- One step: one whole command, or waiting for the host (spec/00_scope.md R7). -/
def step (s : State) : Host.Outcome State Fault Refusal := blockStep s

/-- The state with an opcode-table word's command presented, so that the next step runs exactly it (log 8). -/
def State.withFetchWord (s : State) (nbits w : Nat) : State := placeCommand (tableBytes nbits w) s

end Sys2Proof.Machine
end

