-- ==== Sys2Proof/Machine/Assembler.lean ====
section
/-! DEFINITION. The textual syntax of commands and responses that the spec's programs are written in
(spec/30_encoding.md R81, R82). It has no effect on the machine (D23). -/

namespace Sys2Proof.Machine

/-- The marks of a line. -/
inductive Token where
  | word (text : List Char)
  | comma
  | colon
  | openBrace
  | closeBrace
  deriving DecidableEq, Repr

/-- The token a mark stands for; braces are characters 123 and 125. -/
def markOf (ch : Char) : Option Token :=
  if ch = ',' then some .comma
  else if ch = ':' then some .colon
  else if ch.toNat = 123 then some .openBrace
  else if ch.toNat = 125 then some .closeBrace
  else none

/-- The word read so far, if any, before further tokens. -/
def flushWord (word : List Char) (rest : List Token) : List Token :=
  if word.isEmpty then rest else .word word :: rest

/-- Split a line into tokens; spaces separate and marks stand alone (log 14). `word` is the word being read. -/
def tokenize : List Char → List Char → List Token
  | word, [] => flushWord word []
  | word, ch :: rest =>
    match markOf ch with
    | some mark => flushWord word (mark :: tokenize [] rest)
    | none => if ch = ' ' then flushWord word (tokenize [] rest) else tokenize (word ++ [ch]) rest

/-- The value of a hex digit, either case (log 14). -/
def hexDigit (ch : Char) : Option Nat :=
  if '0' ≤ ch ∧ ch ≤ '9' then some (ch.toNat - 48)
  else if 'A' ≤ ch ∧ ch ≤ 'F' then some (ch.toNat - 55)
  else if 'a' ≤ ch ∧ ch ≤ 'f' then some (ch.toNat - 87)
  else none

/-- The hex digit of a value below 16. -/
def digitChar (n : Nat) : Char := if n < 10 then Char.ofNat (48 + n) else Char.ofNat (55 + n)

/-- A byte of exactly two hex digits (R81). -/
def hexByte : List Char → Option Byte
  | [x, y] =>
    match hexDigit x, hexDigit y with
    | some a, some b => some (BitVec.ofNat 8 (16 * a + b))
    | _, _ => none
  | _ => none

/-- The two hex digits of a byte, most significant first (R11). -/
def hexOfByte (b : Byte) : List Char := [digitChar (b.toNat / 16), digitChar (b.toNat % 16)]

/-- A byte written `0xNN` (R81). -/
def prefixedByte : List Char → Option Byte
  | '0' :: 'x' :: digits => hexByte digits
  | _ => none

/-- A 16-bit value written `0xNNNN` (R81). -/
def prefixedHalf : List Char → Option Half
  | ['0', 'x', w, x, y, z] =>
    match hexByte [w, x], hexByte [y, z] with
    | some hi, some lo => some (joinBytes hi lo)
    | _, _ => none
  | _ => none

/-- A type operand: DATA, STATUS or `0xNN` (R81). -/
def typeOperand (text : List Char) : Option Byte :=
  if text = "DATA".toList then some typeData
  else if text = "STATUS".toList then some typeStatus
  else prefixedByte text

/-- A list of hex bytes (R81). -/
def hexBytes : List Token → Option (List Byte)
  | [] => some []
  | .word text :: rest =>
    match hexByte text, hexBytes rest with
    | some b, some bs => some (b :: bs)
    | _, _ => none
  | _ => none

/-- One record operand, index and value (R81). -/
def recordOperand (index value : List Char) : Option Record :=
  match prefixedByte index, prefixedHalf value with
  | some i, some v => some ⟨i, v⟩
  | _, _ => none

/-- One or more records up to the closing brace (R81). -/
def recordOperands : List Token → Option (List Record)
  | [.word index, .colon, .word value, .closeBrace] => (recordOperand index value).map ([·])
  | .word index :: .colon :: .word value :: .comma :: rest =>
    match recordOperand index value, recordOperands rest with
    | some r, some rs => some (r :: rs)
    | _, _ => none
  | _ => none

/-- The word a command's line begins with (R81). -/
def commandName : Instr → List Char
  | .cksum _ => "CKSUM".toList
  | .verify _ => "VERIFY".toList
  | .encode _ _ => "ENCODE".toList
  | .decode _ => "DECODE".toList
  | .lutRead _ => "LUT_READ".toList

/-- The bytes of a command whose operands fit its layout. -/
def commandBytes (i : Instr) : Option (List Byte) := if i.wf then some (encode i) else none

/-- One line of tokens (R81). DECODE's length operand and ENCODE's count are the assembler's; `.cmd` emits its bytes as
written (R82). -/
def assembleTokens : List Token → Option (List Byte)
  | .word op :: operands =>
    if op = "CKSUM".toList then (hexBytes operands).bind fun b => commandBytes (.cksum b)
    else if op = "VERIFY".toList then (hexBytes operands).bind fun f => commandBytes (.verify f)
    else if op = "DECODE".toList then (hexBytes operands).bind fun d => commandBytes (.decode d)
    else if op = ".cmd".toList then hexBytes operands
    else if op = "ENCODE".toList then
      match operands with
      | [.word type, .comma, .openBrace, .closeBrace] =>
        (typeOperand type).bind fun t => commandBytes (.encode t [])
      | .word type :: .comma :: .openBrace :: records =>
        (typeOperand type).bind fun t =>
          (recordOperands records).bind fun rs => commandBytes (.encode t rs)
      | _ => none
    else if op = "LUT_READ".toList then
      match operands with
      | [.word index] => (prefixedByte index).bind fun i => commandBytes (.lutRead i)
      | _ => none
    else none
  | _ => none

/-- The command bytes of one line of text (R81, R82). -/
def assemble (line : List Char) : Option (List Byte) := assembleTokens (tokenize [] line)

/-- The name a status is written with (R81; spec/60_exceptions.md R171). -/
def statusName : Status → String
  | .ok => "OK"
  | .tooManyRecords => "TOO_MANY_RECORDS"
  | .badLength => "BAD_LENGTH"
  | .badHeader => "BAD_HEADER"
  | .checksumMismatch => "CHECKSUM_MISMATCH"
  | .illegalCommand => "ILLEGAL_COMMAND"
  | .malformedCommand => "MALFORMED_COMMAND"
  | .reservedType => "RESERVED_TYPE"
  | .unusedSlotValue => "UNUSED_SLOT_VALUE"
  | .fatal => "FATAL"

/-- How a response is written: `-> OK <payload hex>` or `-> ERR <STATUS NAME>` (R81). -/
def renderResponse : List Byte → Option (List Char)
  | [] => none
  | code :: payload =>
    match statusOfCode code with
    | none => none
    | some .ok => some ("-> OK".toList ++ payload.flatMap fun b => ' ' :: hexOfByte b)
    | some e => some ("-> ERR ".toList ++ (statusName e).toList)

end Sys2Proof.Machine
end

