-- ==== Sys2Proof/Machine/Port.lean ====
section
/-! DEFINITION. The outside world at the two ports (spec/10_state.md R29, spec/60_exceptions.md R185, R195): what a host
does between the block's steps, one whole transaction, and sessions of several hosts and resets (spec/70 R200, R212). -/

namespace Sys2Proof.Machine

/-- A host presents a whole command; it does so only when both ports are empty (R29, D15), so otherwise none. -/
def present (cmd : List Byte) (s : State) : Option State :=
  if s.cmdPort = none ∧ s.respPort = none then some { s with cmdPort := some cmd } else none

/-- The host takes the response and the response port is empty again (R29); none if there is no response. -/
def takeResponse (s : State) : Option (List Byte × State) :=
  match s.respPort with
  | some r => some (r, { s with respPort := none })
  | none => none

/-- One command from presentation to its response taken: present, one step of the block, take (R185, R211). -/
def transact (cmd : List Byte) (s : State) : Option (List Byte × State) :=
  match present cmd s with
  | none => none
  | some t =>
    match step t with
    | .next u => takeResponse u
    | _ => none

/-- A run without resets (R212): its observation, the list of (command, response) pairs, and the state it ends in. -/
def transactAll : List (List Byte) → State → Option (List (List Byte × List Byte) × State)
  | [], s => some ([], s)
  | cmd :: rest, s =>
    match transact cmd s with
    | none => none
    | some (r, t) =>
      match transactAll rest t with
      | none => none
      | some (log, u) => some ((cmd, r) :: log, u)

/-- The response a command gets when it is the only one (R51). -/
def responseAlone (cmd : List Byte) (s : State) : Option (List Byte) := (transact cmd s).map Prod.fst

/-- One answered command of a session; `agent` is the host that presented it, which the block never sees (R195). -/
structure Exchange where
  agent : Nat
  command : List Byte
  response : List Byte
  deriving DecidableEq, Repr

/-- What can happen next in a session. The order of the events is the arbitration the spec leaves open (R50). -/
inductive Event where
  /-- A host presents a command. -/
  | present (agent : Nat) (cmd : List Byte)
  /-- The block makes its step. -/
  | block
  /-- The host whose command is in flight takes the response. -/
  | take
  /-- The block is reset with a configuration (R200, R206). -/
  | reset (c : Configuration)
  deriving DecidableEq, Repr

/-- The block with its hosts: the command in flight and the observation so far (R212). -/
structure Session where
  block : State
  inFlight : Option (Nat × List Byte)
  log : List Exchange
  deriving DecidableEq, Repr

/-- A session right after reset. -/
def sessionStart (c : Configuration) : Session := ⟨State.resetWith c, none, []⟩

/-- One event; none where the port protocol (R29, R185) does not allow it or the block stops. A reset discards a command
in flight without a response (R200). -/
def sessionNext : Event → Session → Option Session
  | .present agent cmd, σ =>
    (present cmd σ.block).map fun t => { σ with block := t, inFlight := some (agent, cmd) }
  | .block, σ =>
    match step σ.block with
    | .next t => some { σ with block := t }
    | _ => none
  | .take, σ =>
    match takeResponse σ.block, σ.inFlight with
    | some (r, t), some (agent, cmd) => some ⟨t, none, σ.log ++ [⟨agent, cmd, r⟩]⟩
    | _, _ => none
  | .reset c, σ => some ⟨State.resetWith c, none, σ.log⟩

/-- A schedule of events, in order (R50). -/
def sessionRun : List Event → Session → Option Session
  | [], σ => some σ
  | e :: rest, σ =>
    match sessionNext e σ with
    | none => none
    | some τ => sessionRun rest τ

/-- The end of a run: the last response is taken and both ports are empty (R212). -/
def sessionOver (σ : Session) : Bool := σ.block.cmdPort.isNone && σ.block.respPort.isNone

end Sys2Proof.Machine
end

