-- ==== Sys2Proof/Safety.lean ====
section
/-! DEFINITION. What the statements call a sound state, a sound session and a damaged frame, the other table generator of
spec/40_checksum.md R102, and the independent CRC of R117. -/

namespace Sys2Proof.Machine

/-- A response the block may give: a status byte R171 produces, alone unless it is OK (R76). -/
def ResponseSound (r : List Byte) : Prop :=
  ∃ (status : Status) (payload : List Byte),
    r = statusCode status :: payload ∧ (status ≠ .ok → payload = [])

/-- What holds of the block between events: MODE is the one its configuration gives (R27, R203), the fold position is in
its range (R25), at most one port is occupied (R29) and a waiting response is sound (R76). -/
structure State.Inv (s : State) : Prop where
  mode_legal : s.mode = modeAtReset s.config
  pos_range : s.acc.pos ≤ 15
  one_port : s.cmdPort = none ∨ s.respPort = none
  response : ∀ r, s.respPort = some r → ResponseSound r

/-- The state with both ports empty and nothing else changed. -/
def State.idle (s : State) : State := { s with cmdPort := none, respPort := none }

/-- What holds of a session: the block is sound, the command in flight is the one on the command port or the one whose
response waits, and that response is the one the command gets alone (R51, R185). -/
structure Session.Inv (σ : Session) : Prop where
  block : σ.block.Inv
  quiet : σ.inFlight = none → σ.block.cmdPort = none ∧ σ.block.respPort = none
  answered : ∀ agent cmd, σ.inFlight = some (agent, cmd) →
    (σ.block.cmdPort = some cmd ∧ σ.block.respPort = none) ∨
      (σ.block.cmdPort = none ∧ ∃ r, σ.block.respPort = some r ∧
        responseAlone cmd σ.block.idle = some r)

/-- `b` with bit `k` flipped: bit `k mod 8` of offset `k / 8` (R10). -/
def flipBit (b : List Byte) (k : Nat) : List Byte :=
  b.set (k / 8) (byteAt b (k / 8) ^^^ (1#8 <<< (k % 8)))

/-- Bytewise exclusive OR of two strings (R113). -/
def xorBytes (x y : List Byte) : List Byte := List.zipWith (· ^^^ ·) x y

/-- One step of the most-significant-bit-first form of the table generator (R102). -/
def msbGenStep (poly t : Half) : Half :=
  if t.getLsbD 15 then (t <<< 1) ^^^ poly else t <<< 1

/-- The most-significant-bit-first table of a polynomial: eight steps from the index in the high byte (R102). -/
def msbLut (poly : Half) : List Half :=
  (List.range lutEntries).map fun i =>
    (List.range 8).foldl (fun t _ => msbGenStep poly t) (BitVec.ofNat 16 i <<< 8)

/-- The first check that fails, with its status byte (spec/60_exceptions.md R180). -/
def firstFailed (checks : List (Bool × Byte)) : Option Byte := (checks.find? (·.1)).map (·.2)

/-- One bit of the bit-serial reflected CRC with polynomial 0x8408 (R117): the register `crc`, the input bit `bit`. -/
def crcBit (crc : Half) (bit : Bool) : Half :=
  if crc.getLsbD 0 != bit then (crc >>> 1) ^^^ 0x8408 else crc >>> 1

/-- CRC-16/KERMIT of a byte string, bit by bit, least significant bit first, initial register 0 (R117). -/
def crcKermit (s : List Byte) : Half :=
  s.foldl (fun crc b => (List.range 8).foldl (fun r k => crcBit r (b.getLsbD k)) crc) 0

end Sys2Proof.Machine
end

