-- ==== Sys2Proof/Certificates/Slice0/Obligations.lean ====
section
/-! DEFINITION. The statements about the model, for the provers. Each docstring names the rule of spec/ it formalises,
or the sections it is derived from. A statement about a computed checksum never rests on the accumulator between
commands (spec/93 I9): it says `∃ acc` there. -/

open Sys2Proof Sys2Proof.Machine

/-! ## Encoding -/

/-- Decoding the bytes of a well-formed command gives the command back, every operand at every value (30_encoding,
layouts R71 to R75). -/
def Obligations.DecodeOfEncodeIsIdentity : Prop :=
  ∀ i : Instr, i.wf = true → decode (encode i) = .ok i

/-- The other direction: every accepted byte string is the encoding of one well-formed command. -/
def Obligations.EncodeOfDecodeIsIdentity : Prop :=
  ∀ (cmd : List Byte) (i : Instr), decode cmd = .ok i → i.wf = true ∧ encode i = cmd

/-- R79, with the lengths written out: which byte strings the decoder accepts, and how it rejects the others. -/
def Obligations.DecodeAcceptsExactlyTheTabledLengths : Prop :=
  decode [] = .error .malformed ∧
  ∀ (op : Byte) (operands : List Byte),
    let cmd := op :: operands
    let need : Option Nat :=
      if op = 1 then some 16
      else if op = 2 then some 18
      else if op = 3 then (if cmd.length < 3 then none else some (3 + 3 * (byteAt cmd 2).toNat))
      else if op = 4 then
        (if cmd.length < 3 then none else some (3 + ((byteAt cmd 1).toNat * 256 + (byteAt cmd 2).toNat)))
      else some 2
    if op ∈ [1, 2, 3, 4, 5] then
      if need = some cmd.length then ∃ i, decode cmd = .ok i ∧ i.wf = true
      else decode cmd = .error .malformed
    else decode cmd = .error .illegal

/-- The length decoder of R79 and the operand decoder accept the same strings and reject the others alike. -/
def Obligations.CmdLenAgreesWithDecode : Prop :=
  ∀ cmd : List Byte, cmdLen cmd =
    match decode cmd with
    | .ok _ => .ok cmd.length
    | .error e => .error e

/-- Words written out byte by byte from the layouts decode to the commands they stand for, and neighbours are
refused. -/
def Obligations.WrittenOutCommandsDecode : Prop :=
  decode [0x01, 0xCA, 0x35, 2, 0, 0, 0, 0, 0, 0, 0, 0, 0, 0, 0, 9]
    = .ok (.cksum [0xCA, 0x35, 2, 0, 0, 0, 0, 0, 0, 0, 0, 0, 0, 0, 9]) ∧
  decode [0x02, 0xCA, 0x35, 2, 0, 0, 0, 0, 0, 0, 0, 0, 0, 0, 0, 0, 0x5A, 0x0B]
    = .ok (.verify [0xCA, 0x35, 2, 0, 0, 0, 0, 0, 0, 0, 0, 0, 0, 0, 0, 0x5A, 0x0B]) ∧
  decode [0x03, 0x02, 0x02, 0x10, 0x12, 0x34, 0xFF, 0xAB, 0xCD]
    = .ok (.encode 0x02 [⟨0x10, 0x1234⟩, ⟨0xFF, 0xABCD⟩]) ∧
  decode [0x04, 0x00, 0x03, 0xCA, 0x35, 0x07] = .ok (.decode [0xCA, 0x35, 0x07]) ∧
  decode [0x05, 0x80] = .ok (.lutRead 0x80) ∧
  decode [0x04, 0x03, 0x00, 0xCA, 0x35, 0x07] = .error .malformed ∧
  decode [0x06, 0x01] = .error .illegal

/-- R131 and R132: PACK is index, value high, value low; UNPACK of three bytes is `Unused` exactly for index 0xFF, whatever
the value bytes, and else the record with the big-endian value; and the two are inverse on used records. -/
def Obligations.PackAndUnpackFollowTheLayout : Prop :=
  (∀ r : Record, pack r = [r.index, (r.value >>> 8).setWidth 8, r.value.setWidth 8]) ∧
  (∀ index hi lo : Byte, unpack index hi lo =
    if index = 0xFF then none else some ⟨index, BitVec.ofNat 16 (hi.toNat * 256 + lo.toNat)⟩) ∧
  (∀ r : Record,
    unpack r.index (highByte r.value) (lowByte r.value) = if r.index = 0xFF then none else some r) ∧
  (∀ (index hi lo : Byte) (r : Record), unpack index hi lo = some r → pack r = [index, hi, lo])

/-! ## One step -/

/-- A step runs the decoded command: in READY, with the response port empty, the next step is exec of the decoded
command on the state whose command port the acceptance has emptied. -/
def Obligations.StepRunsThePresentedCommand : Prop :=
  ∀ (s : State) (cmd : List Byte) (i : Instr), s.mode = .ready → s.cmdPort = some cmd →
    s.respPort = none → decode cmd = .ok i → step s = exec i { s with cmdPort := none }

/-- With no command presented, or a response not yet taken, the block waits. The model's reading (log 3, log 4) of
70_reset R205 and 10_state R29. -/
def Obligations.BlockWaitsForTheHost : Prop :=
  ∀ s : State, s.cmdPort = none ∨ s.respPort ≠ none → step s = .next s

/-- R173: an illegal opcode is answered ILLEGAL_COMMAND whatever follows it, and nothing else changes. -/
def Obligations.IllegalOpcodeIsAnswered : Prop :=
  ∀ (s : State) (op : Byte) (operands : List Byte), s.mode = .ready → s.respPort = none →
    s.cmdPort = some (op :: operands) → op ∉ ([0x01, 0x02, 0x03, 0x04, 0x05] : List Byte) →
    step s = .next { s with cmdPort := none, respPort := some [0x05] }

/-- R174 with the lengths of R78: the empty command, and a legal opcode with a wrong length, are answered
MALFORMED_COMMAND, and nothing else changes. -/
def Obligations.WrongLengthIsAnswered : Prop :=
  ∀ (s : State) (cmd : List Byte), s.mode = .ready → s.respPort = none → s.cmdPort = some cmd →
    (cmd = [] ∨
      (byteAt cmd 0 = 1 ∧ cmd.length ≠ 16) ∨
      (byteAt cmd 0 = 2 ∧ cmd.length ≠ 18) ∨
      (byteAt cmd 0 = 5 ∧ cmd.length ≠ 2) ∨
      (byteAt cmd 0 = 3 ∧ (cmd.length < 3 ∨ cmd.length ≠ 3 + 3 * (byteAt cmd 2).toNat)) ∨
      (byteAt cmd 0 = 4 ∧
        (cmd.length < 3 ∨ cmd.length ≠ 3 + ((byteAt cmd 1).toNat * 256 + (byteAt cmd 2).toNat)))) →
    step s = .next { s with cmdPort := none, respPort := some [0x06] }

/-- R177: in FATAL every byte string is answered FATAL alone and nothing is computed; no step enters or leaves FATAL;
reset enters it exactly when the table is not admitted or CK_FORM is 3. -/
def Obligations.FatalAnswersEveryCommand : Prop :=
  (∀ (s : State) (cmd : List Byte), s.mode = .fatal → s.respPort = none → s.cmdPort = some cmd →
    step s = .next { s with cmdPort := none, respPort := some [0xFF] }) ∧
  (∀ (s : State) (i : Instr), s.mode = .fatal →
    exec i s = .next { s with respPort := some [0xFF] }) ∧
  (∀ s t : State, step s = .next t → (t.mode = .fatal ↔ s.mode = .fatal)) ∧
  (∀ c : Configuration, (State.resetWith c).mode = .fatal ↔ ¬ LutWellFormed c.lut ∨ c.ckForm = 3)

/-- R180: of the errors that apply to a presented command exactly the first is reported, in the order FATAL,
ILLEGAL_COMMAND, MALFORMED_COMMAND, then ENCODE's count, type, slot value or DECODE's length, header, checksum; and a
command to which none applies is answered OK. -/
def Obligations.ErrorsFollowThePriority : Prop :=
  ∀ (s : State) (cmd : List Byte) (form : CkForm), s.cmdPort = some cmd → s.respPort = none →
    (s.mode = .ready → configForm s.config = some form) →
    let illegal := match cmd with
      | [] => false
      | op :: _ => decide (op ∉ ([0x01, 0x02, 0x03, 0x04, 0x05] : List Byte))
    let own : List (Bool × Byte) :=
      match decode cmd with
      | .ok (.encode type records) =>
        [(decide (4 < records.length), 0x01),
         (decide (s.config.reservedTypePolicy = .reject ∧ type ≠ 0x00 ∧ type ≠ 0x02), 0x07),
         (decide (s.config.ffRecordPolicy = .reject) &&
           records.any (fun r => r.index == 0xFF && r.value != 0x0000), 0x08)]
      | .ok (.decode buf) =>
        [(decide (buf.length ≠ 17), 0x02),
         (decide (byteAt buf 0 ≠ s.config.h1 ∨ byteAt buf 1 ≠ s.config.h2), 0x03),
         (decide (s.config.checksumPolicy = .enforce) && !vf s.config form buf, 0x04)]
      | .ok _ => []
      | .error _ => [(true, 0x06)]
    match firstFailed ([(decide (s.mode = .fatal), 0xFF), (illegal, 0x05)] ++ own) with
    | some code =>
      ∃ acc, step s = .next { s with cmdPort := none, acc := acc, respPort := some [code] }
    | none => ∃ t payload, step s = .next t ∧ t.respPort = some (0x00 :: payload)

/-! ## The checksum commands -/

/-- LUT_READ completes in every READY state: the high byte of the entry, then the low byte, and nothing else changes;
entry 0 of an admitted table is zero (40_checksum R110). -/
def Obligations.LutReadAnswersTheEntry : Prop :=
  ∀ (s : State) (form : CkForm) (index : Byte), s.mode = .ready → configForm s.config = some form →
    let entry : Half := s.config.lut.getD index.toNat 0
    exec (.lutRead index) s = .next { s with
      respPort := some [0x00, (entry >>> 8).setWidth 8, entry.setWidth 8] } ∧
    (LutWellFormed s.config.lut → exec (.lutRead 0x00) s = .next { s with
      respPort := some [0x00, 0x00, 0x00] })

/-- R111: CKSUM of 15 bytes completes in every READY state with OK and the pair of R106; form C ignores bytes 0 and 1;
the all-zero input gives DA 9B and the rule's example gives 5A 0B under the default configuration; a wrong length is
MALFORMED_COMMAND and FATAL mode answers FATAL. -/
def Obligations.CksumAnswersThePair : Prop :=
  (∀ (s : State) (form : CkForm) (body : List Byte), s.mode = .ready →
    configForm s.config = some form → body.length = 15 →
    ∃ acc, exec (.cksum body) s = .next { s with
      acc := acc
      respPort := some [0x00, (ck s.config form body).1, (ck s.config form body).2] }) ∧
  (∀ (c : Configuration) (x y x' y' : Byte) (rest : List Byte),
    ck c .c (x :: y :: rest) = ck c .c (x' :: y' :: rest)) ∧
  ck defaultConfig .a (List.replicate 15 0) = (0xDA, 0x9B) ∧
  ck defaultConfig .a [0xCA, 0x35, 0x02, 0, 0, 0, 0, 0, 0, 0, 0, 0, 0, 0, 0] = (0x5A, 0x0B) ∧
  (∀ (s : State) (body : List Byte), s.mode = .ready → s.respPort = none →
    s.cmdPort = some (0x01 :: body) → body.length ≠ 15 →
    step s = .next { s with cmdPort := none, respPort := some [0x06] }) ∧
  (∀ (s : State) (body : List Byte), s.mode = .fatal →
    exec (.cksum body) s = .next { s with respPort := some [0xFF] })

/-- R107 and R112: VERIFY of 17 bytes completes in every READY state with OK and 0x01 exactly when the pair computed over
offsets 0 to 14 equals offsets 15 and 16, else 0x00; CHECKSUM_POLICY plays no part; form C ignores the header; the rule's
two examples; a wrong length is MALFORMED_COMMAND and FATAL mode answers FATAL. -/
def Obligations.VerifyComparesThePair : Prop :=
  (∀ (s : State) (form : CkForm) (frame : List Byte), s.mode = .ready →
    configForm s.config = some form → frame.length = 17 →
    ∃ acc, exec (.verify frame) s = .next { s with
      acc := acc
      respPort := some [0x00,
        if (ck s.config form (frame.take 15)).1 = byteAt frame 15 ∧
          (ck s.config form (frame.take 15)).2 = byteAt frame 16 then 0x01 else 0x00] }) ∧
  (∀ (c : Configuration) (form : CkForm) (p : ChecksumPolicy) (frame : List Byte),
    vf { c with checksumPolicy := p } form frame = vf c form frame) ∧
  (∀ (c : Configuration) (x y x' y' : Byte) (rest : List Byte),
    vf c .c (x :: y :: rest) = vf c .c (x' :: y' :: rest)) ∧
  vf defaultConfig .a [0xCA, 0x35, 0x02, 0, 0, 0, 0, 0, 0, 0, 0, 0, 0, 0, 0, 0x5A, 0x0B] = true ∧
  vf defaultConfig .a [0xCA, 0x35, 0x02, 0, 0, 0, 0, 0, 0, 0, 0, 0, 0, 0, 0, 0x9B, 0xA0] = false ∧
  (∀ (s : State) (frame : List Byte), s.mode = .ready → s.respPort = none →
    s.cmdPort = some (0x02 :: frame) → frame.length ≠ 17 →
    step s = .next { s with cmdPort := none, respPort := some [0x06] }) ∧
  (∀ (s : State) (frame : List Byte), s.mode = .fatal →
    exec (.verify frame) s = .next { s with respPort := some [0xFF] })

/-- R103: the seed of each form reads H1 and H2 of the configuration, or zero, and starts at offset 0 or 2. -/
def Obligations.SeedFollowsTheForm : Prop :=
  ∀ c : Configuration, seed c .a = ⟨c.h1, c.h2, 0⟩ ∧ seed c .b = ⟨0x00, 0x00, 0⟩ ∧ seed c .c = ⟨c.h1, c.h2, 2⟩

/-- R104: both new accumulator bytes come from the old ones and one table entry, and the position advances by one. -/
def Obligations.FoldUsesTheOldAccumulator : Prop :=
  ∀ (c : Configuration) (c1 c0 b : Byte) (pos : Nat),
    let entry : Half := c.lut.getD (c1 ^^^ b).toNat 0
    fold c ⟨c1, c0, pos⟩ b = ⟨c0 ^^^ entry.setWidth 8, (entry >>> 8).setWidth 8, pos + 1⟩

/-- R106: CK seeds and then folds the bytes at offsets pos to 14 in increasing order (15 bytes for forms A and B, 13 for
form C), ends at position 15, and reads nothing but its input, the form, H1, H2 and the table. -/
def Obligations.ChecksumFoldsOffsetsInOrder : Prop :=
  (∀ (c : Configuration) (form : CkForm) (b : List Byte), b.length = 15 →
    let first := if form = .c then 2 else 0
    let last := (List.range' first (15 - first)).foldl (fun acc k => fold c acc (byteAt b k)) (seed c form)
    ck c form b = (last.c1, last.c0) ∧ (ckState c form b).pos = 15) ∧
  (∀ (c c' : Configuration) (form : CkForm) (b : List Byte),
    c.h1 = c'.h1 → c.h2 = c'.h2 → c.lut = c'.lut → ck c form b = ck c' form b)

/-- R108: with entry 0 zero, a correct header folds form A's seed to (0, 0) by way of (H2, 0), so form A's checksum is the
zero-seeded fold of offsets 2 to 14. -/
def Obligations.CorrectHeaderFoldsToZero : Prop :=
  ∀ (c : Configuration) (rest : List Byte), c.lut.getD 0 0 = 0 → rest.length = 13 →
    fold c (seed c .a) c.h1 = ⟨c.h2, 0x00, 1⟩ ∧
    fold c (fold c (seed c .a) c.h1) c.h2 = ⟨0x00, 0x00, 2⟩ ∧
    ck c .a (c.h1 :: c.h2 :: rest) =
      ((rest.foldl (fold c) ⟨0x00, 0x00, 2⟩).c1, (rest.foldl (fold c) ⟨0x00, 0x00, 2⟩).c0)

/-- R109: under the default configuration the three forms differ by fixed byte pairs on every input with a correct header,
because the header leaves the three states the rule names, and they have the stated values on the all-zero input. Over
inputs with any headers the difference from form C varies: two inputs have the same one exactly when their headers are the
same, and it differs between some two headers both other than CA 35. Forms A and B, which both read the header, differ by
DA 9B whatever it is (R113), so R109's 'the differences vary' is about form C, as its own reason says. -/
def Obligations.FormsDifferByFixedPairs : Prop :=
  let diff := fun (x y : Byte × Byte) => (x.1 ^^^ y.1, x.2 ^^^ y.2)
  let ckOf := fun (form : CkForm) (b : List Byte) => ck defaultConfig form b
  let foldHeader := fun (acc : ChecksumState) => fold defaultConfig (fold defaultConfig acc 0xCA) 0x35
  (foldHeader (seed defaultConfig .a) = ⟨0x00, 0x00, 2⟩ ∧ foldHeader (seed defaultConfig .b) = ⟨0xF4, 0x51, 2⟩ ∧
    seed defaultConfig .c = ⟨0xCA, 0x35, 2⟩) ∧
  (∀ rest : List Byte, rest.length = 13 →
    let b := 0xCA :: 0x35 :: rest
    diff (ckOf .a b) (ckOf .b b) = (0xDA, 0x9B) ∧
    diff (ckOf .a b) (ckOf .c b) = (0x8A, 0x3D) ∧
    diff (ckOf .b b) (ckOf .c b) = (0x50, 0xA6)) ∧
  ckOf .a (List.replicate 15 0) = (0xDA, 0x9B) ∧
  ckOf .b (List.replicate 15 0) = (0x00, 0x00) ∧
  ckOf .c (List.replicate 15 0) = (0x8A, 0x3D) ∧
  (∀ (form : CkForm) (b b' : List Byte), form ≠ .c → b.length = 15 → b'.length = 15 →
    (diff (ckOf form b) (ckOf .c b) = diff (ckOf form b') (ckOf .c b') ↔ b.take 2 = b'.take 2)) ∧
  (∀ form : CkForm, form ≠ .c → ∃ b b' : List Byte, b.length = 15 ∧ b'.length = 15 ∧
    b.take 2 ≠ [0xCA, 0x35] ∧ b'.take 2 ≠ [0xCA, 0x35] ∧
    diff (ckOf form b) (ckOf .c b) ≠ diff (ckOf form b') (ckOf .c b'))

/-- 40_checksum R113: for every admitted table the fold is linear in accumulator and input jointly, and CK is affine. -/
def Obligations.ChecksumIsAffine : Prop :=
  ∀ c : Configuration, LutWellFormed c.lut →
    (∀ (x1 x0 x y1 y0 y : Byte) (p : Nat),
      let f := fold c ⟨x1, x0, p⟩ x
      let g := fold c ⟨y1, y0, p⟩ y
      fold c ⟨x1 ^^^ y1, x0 ^^^ y0, p⟩ (x ^^^ y) = ⟨f.c1 ^^^ g.c1, f.c0 ^^^ g.c0, p + 1⟩) ∧
    (∀ (form : CkForm) (x y : List Byte), x.length = 15 → y.length = 15 →
      let zero := ck c form (List.replicate 15 0)
      ck c form (xorBytes x y) =
        ((ck c form x).1 ^^^ (ck c form y).1 ^^^ zero.1, (ck c form x).2 ^^^ (ck c form y).2 ^^^ zero.2))

/-- R114: under the default table, forms A and B detect every change of one or two bits of offsets 0 to 14; form C never
sees a change of offsets 0 and 1; every form detects a single-bit change of the type byte or the payload. -/
def Obligations.ChecksumDetectsOneAndTwoBitChanges : Prop :=
  ∀ c : Configuration, c.lut = defaultLut →
    (∀ (form : CkForm) (b : List Byte), form ≠ .c → b.length = 15 →
      (∀ k < 120, ck c form (flipBit b k) ≠ ck c form b) ∧
      (∀ j < 120, ∀ k < 120, j ≠ k → ck c form (flipBit (flipBit b j) k) ≠ ck c form b)) ∧
    (∀ (x y x' y' : Byte) (rest : List Byte), ck c .c (x :: y :: rest) = ck c .c (x' :: y' :: rest)) ∧
    (∀ (form : CkForm) (b : List Byte), b.length = 15 →
      ∀ k < 120, 16 ≤ k → ck c form (flipBit b k) ≠ ck c form b)

/-- R117: under the default configuration, CK of an input with a correct header is the bit-serial CRC-16/KERMIT of offsets
2 to 14, c1 its low byte and c0 its high byte; that CRC has the standard check value, and the rule's example. -/
def Obligations.FormAIsKermit : Prop :=
  (∀ rest : List Byte, rest.length = 13 →
    ck defaultConfig .a (0xCA :: 0x35 :: rest) =
      ((crcKermit rest).setWidth 8, (crcKermit rest >>> 8).setWidth 8)) ∧
  crcKermit [0x31, 0x32, 0x33, 0x34, 0x35, 0x36, 0x37, 0x38, 0x39] = 0x2189 ∧
  crcKermit [0x02, 0, 0, 0, 0, 0, 0, 0, 0, 0, 0, 0, 0] = 0x0B5A

/-- R155: in every form and for every table, 15 bytes followed by their checksum verify, and VERIFY answers 00 01. -/
def Obligations.ChecksumRoundTrip : Prop :=
  ∀ (s : State) (form : CkForm) (b : List Byte), b.length = 15 →
    vf s.config form (b ++ [(ck s.config form b).1, (ck s.config form b).2]) = true ∧
    (s.mode = .ready → configForm s.config = some form →
      ∃ acc, exec (.verify (b ++ [(ck s.config form b).1, (ck s.config form b).2])) s =
        .next { s with acc := acc, respPort := some [0x00, 0x01] })

/-! ## The codec commands -/

/-- R134: ENCODE completes in every READY state. The first failed check of count, type and slot value gives its status and
changes nothing else; otherwise the answer is OK and a frame of 17 bytes: the configured header, the type, record k in slot
k, FF 00 00 in the slots after the records, and the checksum of offsets 0 to 14. -/
def Obligations.EncodeAnswersTheFrame : Prop :=
  ∀ (s : State) (form : CkForm) (type : Byte) (records : List Record), s.mode = .ready →
    configForm s.config = some form → records.length < 256 →
    if 4 < records.length then
      exec (.encode type records) s = .next { s with respPort := some [0x01] }
    else if s.config.reservedTypePolicy = .reject ∧ type ≠ 0x00 ∧ type ≠ 0x02 then
      exec (.encode type records) s = .next { s with respPort := some [0x07] }
    else if s.config.ffRecordPolicy = .reject ∧ ∃ r ∈ records, r.index = 0xFF ∧ r.value ≠ 0x0000 then
      exec (.encode type records) s = .next { s with respPort := some [0x08] }
    else ∃ (f : List Byte) (acc : ChecksumState),
      exec (.encode type records) s = .next { s with acc := acc, respPort := some (0x00 :: f) } ∧
      f.length = 17 ∧ byteAt f 0 = s.config.h1 ∧ byteAt f 1 = s.config.h2 ∧ byteAt f 2 = type ∧
      (∀ k < 4, [byteAt f (3 + 3 * k), byteAt f (4 + 3 * k), byteAt f (5 + 3 * k)] =
        match records[k]? with
        | some r => [r.index, (r.value >>> 8).setWidth 8, r.value.setWidth 8]
        | none => [0xFF, 0x00, 0x00]) ∧
      (byteAt f 15, byteAt f 16) = ck s.config form (f.take 15)

/-- R135: DECODE completes in every READY state. The first failed check of length, header and (under Enforce only) checksum
gives its status; otherwise the answer is OK, the type byte, the number of used slots and the used slots' bytes in slot
order, a slot being unused exactly when its index is 0xFF. Only a computed checksum touches the accumulator. -/
def Obligations.DecodeAnswersTheMessage : Prop :=
  ∀ (s : State) (form : CkForm) (buf : List Byte), s.mode = .ready →
    configForm s.config = some form → buf.length < 65536 →
    if buf.length ≠ 17 then
      exec (.decode buf) s = .next { s with respPort := some [0x02] }
    else if byteAt buf 0 ≠ s.config.h1 ∨ byteAt buf 1 ≠ s.config.h2 then
      exec (.decode buf) s = .next { s with respPort := some [0x03] }
    else if s.config.checksumPolicy = .enforce ∧
        ck s.config form (buf.take 15) ≠ (byteAt buf 15, byteAt buf 16) then
      ∃ acc, exec (.decode buf) s = .next { s with acc := acc, respPort := some [0x04] }
    else
      let used := ([3, 6, 9, 12] : List Nat).filter fun at_ => byteAt buf at_ ≠ 0xFF
      ∃ acc, (s.config.checksumPolicy = .bypass → acc = s.acc) ∧
        exec (.decode buf) s = .next { s with
          acc := acc
          respPort := some (0x00 :: byteAt buf 2 :: BitVec.ofNat 8 used.length ::
            used.flatMap fun at_ => [byteAt buf at_, byteAt buf (at_ + 1), byteAt buf (at_ + 2)]) }

/-- R156: the frame EN returns decodes, under either CHECKSUM_POLICY, to its type and its records without those of index
0xFF, in order. -/
def Obligations.DecodeOfEncodedFrameFiltersRecords : Prop :=
  ∀ (c : Configuration) (form : CkForm) (policy : ChecksumPolicy) (type : Byte) (records : List Record)
    (f : List Byte), en c form type records = .ok f →
    de { c with checksumPolicy := policy } form f =
      .ok ⟨type, records.filter fun r => r.index ≠ 0xFF⟩

/-- R158: under the default policies, encoding the message of a decoded frame gives that frame back exactly when its unused
slots hold FF 00 00 and come after the used ones. -/
def Obligations.EncodeOfDecodedFrameRestores : Prop :=
  ∀ (c : Configuration) (form : CkForm) (f : List Byte) (m : Message),
    c.checksumPolicy = .enforce → c.reservedTypePolicy = .accept → c.ffRecordPolicy = .verbatim →
    de c form f = .ok m →
    (en c form m.type m.records = .ok f ↔
      ∃ n ≤ 4, (∀ k < n, byteAt f (3 + 3 * k) ≠ 0xFF) ∧
        ∀ k < 4, n ≤ k → byteAt f (3 + 3 * k) = 0xFF ∧ byteAt f (4 + 3 * k) = 0x00 ∧
          byteAt f (5 + 3 * k) = 0x00)

/-- R160: under Enforce with the default table, in every form, a valid frame with one bit flipped is CHECKSUM_MISMATCH if
the bit is in offsets 2 to 16 and BAD_HEADER if it is in offset 0 or 1. -/
def Obligations.DecodeDetectsSingleBitFlips : Prop :=
  ∀ (c : Configuration) (form : CkForm) (f : List Byte) (m : Message),
    c.lut = defaultLut → c.checksumPolicy = .enforce → de c form f = .ok m →
    (∀ k < 136, 16 ≤ k → de c form (flipBit f k) = .error .checksumMismatch) ∧
    (∀ k < 16, de c form (flipBit f k) = .error .badHeader)

/-- D8 and 60_exceptions R192: under Bypass, DECODE's answer does not depend on offsets 15 and 16. -/
def Obligations.BypassIgnoresChecksumBytes : Prop :=
  ∀ (s : State) (form : CkForm) (body : List Byte) (x y x' y' : Byte), s.mode = .ready →
    configForm s.config = some form → s.config.checksumPolicy = .bypass → body.length = 15 →
    exec (.decode (body ++ [x, y])) s = exec (.decode (body ++ [x', y'])) s

/-- 95_test_vectors P2: when H1 and H2 differ, a 17-byte window starting one byte before a frame with a correct header is
BAD_HEADER whatever that byte is. -/
def Obligations.WindowOneByteEarlyIsBadHeader : Prop :=
  ∀ (c : Configuration) (form : CkForm) (g : Byte) (rest : List Byte), c.h1 ≠ c.h2 → rest.length = 15 →
    de c form ((g :: c.h1 :: c.h2 :: rest).take 17) = .error .badHeader

/-! ## Frames and whole-machine rules -/

/-- 41_frame_codec R162, 10_state R22, R23: a command that answers changes nothing but the response port and, for the four
commands that compute a checksum, the accumulator: the configuration, the table, MODE and the command port stay as they
were, and LUT_READ leaves the accumulator too. -/
def Obligations.CommandsChangeOnlyTheResponse : Prop :=
  ∀ (i : Instr) (s t : State), exec i s = .next t →
    t.config = s.config ∧ t.mode = s.mode ∧ t.cmdPort = s.cmdPort ∧ t.respPort ≠ none ∧
    ((∃ index, i = .lutRead index) → t.acc = s.acc)

/-- 60_exceptions R170, R181: a step that answers an error has no other effect: the response is the status byte alone and
the state is the accepted one, up to the accumulator of a checksum that did not match. -/
def Obligations.ErrorsHaveNoOtherEffect : Prop :=
  ∀ (s t : State) (code : Byte) (payload : List Byte), s.respPort = none → step s = .next t →
    t.respPort = some (code :: payload) → code ≠ 0x00 →
    payload = [] ∧ t = { s with cmdPort := none, acc := t.acc, respPort := some [code] } ∧
    (code ≠ 0x04 → t.acc = s.acc)

/-- R76, lengths: the payload of an OK response of each command. -/
def Obligations.PayloadLengthsFollowTheCommand : Prop :=
  ∀ (i : Instr) (s t : State) (payload : List Byte), i.wf = true → exec i s = .next t →
    t.respPort = some (0x00 :: payload) →
    match i with
    | .cksum _ => payload.length = 2
    | .verify _ => payload = [0x00] ∨ payload = [0x01]
    | .encode _ _ => payload.length = 17
    | .decode _ => ∃ m ≤ 4, byteAt payload 1 = BitVec.ofNat 8 m ∧ payload.length = 2 + 3 * m
    | .lutRead _ => payload.length = 2

/-- R208: no step changes the configuration, and neither does a host that presents a command or takes a response; every
event that is no reset keeps it. -/
def Obligations.OnlyResetChangesTheConfiguration : Prop :=
  (∀ s t : State, step s = .next t → t.config = s.config ∧ t.mode = s.mode) ∧
  (∀ (e : Event) (σ τ : Session), sessionNext e σ = some τ → (∀ c, e ≠ .reset c) →
    τ.block.config = σ.block.config ∧ τ.block.mode = σ.block.mode)

/-- The invariant holds after reset. The accumulator clause rests on the model's reset value of `pos` (log 1). -/
def Obligations.InvariantHoldsAtReset : Prop :=
  State.reset.Inv ∧ ∀ c : Configuration, (State.resetWith c).Inv

/-- Every step keeps the invariant: MODE the one its configuration gives, the fold position in range, at most one port
occupied, a waiting response sound. -/
def Obligations.StepKeepsTheInvariant : Prop :=
  ∀ s t : State, s.Inv → step s = .next t → t.Inv

/-- A sound state never stops: the step from every state that meets the invariant is a next state. -/
def Obligations.SoundStatesNeverStop : Prop :=
  ∀ s : State, s.Inv → ∃ t, step s = .next t

/-- R204, R205: reset with the default configuration leaves every field at its stated value and both ports empty, and any
other configuration is taken as presented. -/
def Obligations.ResetLeavesTheStatedValues : Prop :=
  State.reset.config.h1 = 0xCA ∧ State.reset.config.h2 = 0x35 ∧ State.reset.config.lut = defaultLut ∧
  configForm State.reset.config = some .a ∧ State.reset.config.checksumPolicy = .enforce ∧
  State.reset.config.reservedTypePolicy = .accept ∧ State.reset.config.ffRecordPolicy = .verbatim ∧
  State.reset.cmdPort = none ∧ State.reset.respPort = none ∧
  ∀ c : Configuration, (State.resetWith c).config = c ∧ (State.resetWith c).cmdPort = none ∧
    (State.resetWith c).respPort = none

/-- R203: MODE after reset is READY exactly when the table is well formed and CK_FORM is A, B or C, else FATAL; it is READY
under the default configuration. -/
def Obligations.ResetModeIsLegality : Prop :=
  (∀ c : Configuration,
    ((State.resetWith c).mode = .ready ↔ LutWellFormed c.lut ∧ (c.ckForm = 0 ∨ c.ckForm = 1 ∨ c.ckForm = 2)) ∧
    ((State.resetWith c).mode = .ready ∨ (State.resetWith c).mode = .fatal)) ∧
  State.reset.mode = .ready

/-- R102: the property of an admitted table holds of every table the generator of R101 makes, for any polynomial, of the
most-significant-bit-first form, and of the default table, which is the generated one for 0x8408; a table without it puts
the block in FATAL at reset. -/
def Obligations.EveryGeneratedTableIsAdmitted : Prop :=
  (∀ poly : Half, LutWellFormed (generatedLut poly) ∧ LutWellFormed (msbLut poly)) ∧
  LutWellFormed defaultLut ∧ defaultLut = generatedLut 0x8408 ∧
  ∀ c : Configuration, ¬ LutWellFormed c.lut → (State.resetWith c).mode = .fatal

/-- 20_memory R51: what a step answers does not depend on what an earlier command left behind: two states that differ only
in the accumulator step alike, up to the accumulator. -/
def Obligations.AnswersIgnoreTheAccumulator : Prop :=
  ∀ (s : State) (acc : ChecksumState),
    match step s, step { s with acc := acc } with
    | .next t, .next u => u = { t with acc := u.acc }
    | .fault e, .fault f => e = f
    | _, _ => False

/-- 70_reset R211, 60_exceptions R185: every byte string presented to a sound block is answered in exactly one step, and the
response can be taken. -/
def Obligations.EveryCommandIsAnsweredInOneStep : Prop :=
  ∀ (s : State) (cmd : List Byte), s.Inv → s.cmdPort = none → s.respPort = none →
    ∃ t u r, present cmd s = some t ∧ step t = .next u ∧ u.cmdPort = none ∧ u.respPort = some r ∧
      ∃ v, transact cmd s = some (r, v) ∧ v.cmdPort = none ∧ v.respPort = none ∧ v.Inv

/-- 70_reset R207, R212: in any run of commands without a reset, each command gets the response it would have had as the
first, and the block ends with the configuration and MODE it began with and both ports empty. -/
def Obligations.RunsAnswerEachCommandAsAlone : Prop :=
  ∀ (cmds : List (List Byte)) (s : State), s.Inv → s.cmdPort = none → s.respPort = none →
    ∃ (log : List (List Byte × List Byte)) (t : State), transactAll cmds s = some (log, t) ∧
      log.map Prod.fst = cmds ∧ (∀ p ∈ log, responseAlone p.1 s = some p.2) ∧
      t = { s with acc := t.acc }

/-- 20_memory R51: every interleaving of commands from several hosts gives each command the response it would have had
alone, whatever the order the port takes them in. That a schedule is a list of events at the ports is the model's choice
(log 12). -/
def Obligations.EveryInterleavingAnswersAsAlone : Prop :=
  ∀ (events : List Event) (σ τ : Session), σ.Inv → sessionRun events σ = some τ →
    (∀ c, Event.reset c ∉ events) →
    ∃ new : List Exchange, τ.log = σ.log ++ new ∧
      ∀ e ∈ new, responseAlone e.command σ.block.idle = some e.response

/-- 60_exceptions R182, R195: with several hosts and resets, every event keeps the session sound: the command in flight is
on the command port, or its own response, the one it gets alone, waits. After a reset, at the start or as an event, the
invariant's clause on `pos` rests on the model's reset value (log 1), which R31 and R202 leave unspecified; sessions and
their events are the model's choice (log 12). -/
def Obligations.EveryEventKeepsTheSessionSound : Prop :=
  (∀ c : Configuration, (sessionStart c).Inv) ∧
  ∀ (e : Event) (σ τ : Session), σ.Inv → sessionNext e σ = some τ → τ.Inv

/-- R200, I17: a reset leaves the block as `resetWith` does whatever it was doing, discards a command in flight without a
response and adds nothing to the observation. Sessions and the reset event are the model's choice (log 12, log 17). -/
def Obligations.ResetDiscardsThePresentedCommand : Prop :=
  ∀ (c : Configuration) (σ : Session), ∃ τ, sessionNext (.reset c) σ = some τ ∧
    τ.block = State.resetWith c ∧ τ.inFlight = none ∧ τ.log = σ.log ∧ sessionOver τ = true

/-- R82, over lines of text. DECODE's length operand is counted by the assembler; an ENCODE with an empty list, its type
DATA, STATUS or `0xNN`, expands to three bytes; `.cmd` emits any bytes as written; and there is no other way to write an
illegal or malformed command: every line that assembles and does not begin with `.cmd` begins with the name of one of the
five commands and gives bytes that decode to a command of that opcode. -/
def Obligations.AssemblerExpandsPseudoCommands : Prop :=
  let hexWords := fun (bytes : List Byte) => bytes.flatMap fun b => ' ' :: hexOfByte b
  let emptyEncode := fun (type : List Char) =>
    "ENCODE ".toList ++ type ++ [',', ' ', Char.ofNat 123, Char.ofNat 125]
  (∀ buf : List Byte, buf.length < 65536 →
    assemble ("DECODE".toList ++ hexWords buf) =
      some (0x04 :: BitVec.ofNat 8 (buf.length / 256) :: BitVec.ofNat 8 (buf.length % 256) :: buf)) ∧
  assemble (emptyEncode "DATA".toList) = some [0x03, 0x00, 0x00] ∧
  assemble (emptyEncode "STATUS".toList) = some [0x03, 0x02, 0x00] ∧
  (∀ type : Byte, assemble (emptyEncode ('0' :: 'x' :: hexOfByte type)) = some [0x03, type, 0x00]) ∧
  (∀ bytes : List Byte, assemble (".cmd".toList ++ hexWords bytes) = some bytes) ∧
  (∀ (line : List Char) (bytes : List Byte), assemble line = some bytes →
    ∃ (name : List Char) (operands : List Token), tokenize [] line = .word name :: operands ∧
      (name = ".cmd".toList ∨
        (name, byteAt bytes 0) ∈ [("CKSUM".toList, (0x01 : Byte)), ("VERIFY".toList, 0x02),
          ("ENCODE".toList, 0x03), ("DECODE".toList, 0x04), ("LUT_READ".toList, 0x05)] ∧
        ∃ i, decode bytes = .ok i)) ∧
  (∀ (line : List Char) (bytes : List Byte) (rejection : Rejection), assemble line = some bytes →
    decode bytes = .error rejection → ∃ operands, tokenize [] line = .word ".cmd".toList :: operands)
end

