-- ==== Sys2Proof/Laws/Assembler.lean ====
section
/-! SUPPORT. What the assembler can emit (spec/30_encoding.md R81, R82), and how a line of hex bytes splits into words. -/

namespace Sys2Proof.Machine

/-- The assembler emits a command only when its operands fit its layout. -/
theorem commandBytes_eq_some {i : Instr} {bytes : List Byte} :
    commandBytes i = some bytes ↔ i.wf = true ∧ encode i = bytes := by
  unfold commandBytes
  split <;> simp_all

/-! The lines of hex bytes, by their first word (R81); ENCODE's empty list (R82). -/

theorem assembleTokens_cksum (operands : List Token) : assembleTokens (.word "CKSUM".toList :: operands) =
    (hexBytes operands).bind fun b => commandBytes (.cksum b) := by simp [assembleTokens]

theorem assembleTokens_verify (operands : List Token) : assembleTokens (.word "VERIFY".toList :: operands) =
    (hexBytes operands).bind fun f => commandBytes (.verify f) := by simp [assembleTokens]

theorem assembleTokens_decode (operands : List Token) : assembleTokens (.word "DECODE".toList :: operands) =
    (hexBytes operands).bind fun d => commandBytes (.decode d) := by simp [assembleTokens]

theorem assembleTokens_cmd (operands : List Token) :
    assembleTokens (.word ".cmd".toList :: operands) = hexBytes operands := by simp [assembleTokens]

theorem assembleTokens_encode_empty (type : List Char) :
    assembleTokens [.word "ENCODE".toList, .word type, .comma, .openBrace, .closeBrace] =
      (typeOperand type).bind fun t => commandBytes (.encode t []) := by simp [assembleTokens]

/-- Everything a line that assembles can be: raw bytes after `.cmd`, or the encoding of one well-formed command under its
own name. -/
theorem assembleTokens_cases {tokens : List Token} {bytes : List Byte} (h : assembleTokens tokens = some bytes) :
    (∃ operands, tokens = .word ".cmd".toList :: operands ∧ hexBytes operands = some bytes) ∨
      ∃ (i : Instr) (operands : List Token), tokens = .word (commandName i) :: operands ∧ i.wf = true ∧
        encode i = bytes := by
  match tokens, h with
  | .word op :: operands, h =>
    have emitted : ∀ {i : Instr}, commandBytes i = some bytes → op = commandName i →
        ∃ (i : Instr) (rest : List Token), Token.word op :: operands = .word (commandName i) :: rest ∧ i.wf = true ∧
          encode i = bytes :=
      fun hb hn => ⟨_, operands, by rw [hn], commandBytes_eq_some.mp hb⟩
    unfold assembleTokens at h
    dsimp only at h
    split_ifs at h with h1 h2 h3 h4 h5 h6
    · obtain ⟨b, -, hb⟩ := Option.bind_eq_some_iff.mp h
      exact .inr (emitted hb h1)
    · obtain ⟨f, -, hb⟩ := Option.bind_eq_some_iff.mp h
      exact .inr (emitted hb h2)
    · obtain ⟨d, -, hb⟩ := Option.bind_eq_some_iff.mp h
      exact .inr (emitted hb h3)
    · exact .inl ⟨operands, by rw [h4], h⟩
    · split at h
      · obtain ⟨t, -, hb⟩ := Option.bind_eq_some_iff.mp h
        exact .inr (emitted hb h5)
      · obtain ⟨t, -, h⟩ := Option.bind_eq_some_iff.mp h
        obtain ⟨rs, -, hb⟩ := Option.bind_eq_some_iff.mp h
        exact .inr (emitted hb h5)
      · cases h
    · split at h
      · obtain ⟨k, -, hb⟩ := Option.bind_eq_some_iff.mp h
        exact .inr (emitted hb h6)
      · cases h

/-- A byte's two digits read back (R81). -/
@[simp] theorem hexByte_hexOfByte (b : Byte) : hexByte (hexOfByte b) = some b := by
  revert b; decide +kernel

/-- A hex digit is neither a space nor a mark. -/
theorem digitChar_plain (n : Nat) (h : n < 16) : markOf (digitChar n) = none ∧ digitChar n ≠ ' ' := by
  revert n; decide

@[simp] theorem hexBytes_map_hexOfByte (bytes : List Byte) :
    hexBytes (bytes.map fun b => .word (hexOfByte b)) = some bytes := by
  induction bytes with
  | nil => rfl
  | cons b bytes ih => simp [hexBytes, ih]

/-- A character that is neither a space nor a mark joins the word being read. -/
theorem tokenize_plain {ch : Char} (hm : markOf ch = none) (hs : ch ≠ ' ') (word rest : List Char) :
    tokenize word (ch :: rest) = tokenize (word ++ [ch]) rest := by
  simp [tokenize, hm, hs]

/-- Hex bytes with a space before each, after the word being read, are that word and one word for each byte. -/
theorem tokenize_hexWords (bytes : List Byte) : ∀ word : List Char,
    tokenize word (bytes.flatMap fun b => ' ' :: hexOfByte b) =
      flushWord word (bytes.map fun b => .word (hexOfByte b)) := by
  induction bytes with
  | nil => intro word; rfl
  | cons b bytes ih =>
    intro word
    have hi := digitChar_plain (b.toNat / 16) (by omega)
    have lo := digitChar_plain (b.toNat % 16) (by omega)
    rw [List.flatMap_cons, List.map_cons]
    change flushWord word (tokenize [] (digitChar _ :: digitChar _ :: bytes.flatMap fun b => ' ' :: hexOfByte b)) = _
    rw [tokenize_plain hi.1 hi.2, tokenize_plain lo.1 lo.2, ih]
    rfl

/-- A line of a name and hex bytes is that name and one word for each byte. -/
theorem tokenize_name_hexWords (name : List Char) (bytes : List Byte) (plain : ∀ ch ∈ name, markOf ch = none ∧ ch ≠ ' ') :
    ∀ word : List Char, tokenize word (name ++ bytes.flatMap fun b => ' ' :: hexOfByte b) =
      flushWord (word ++ name) (bytes.map fun b => .word (hexOfByte b)) := by
  induction name with
  | nil => intro word; simpa using tokenize_hexWords bytes word
  | cons ch name ih =>
    intro word
    have hch := plain ch (by simp)
    rw [List.cons_append, tokenize_plain hch.1 hch.2, ih fun c hc => plain c (by simp [hc])]
    simp

end Sys2Proof.Machine
end

