-- ==== Sys2Proof/Laws/State.lean ====
section
/-! SUPPORT. One lemma per field per update of the state, so that no later proof unfolds a record update. -/

namespace Sys2Proof.Machine

@[simp] theorem accept_config (s : State) :
    (accept s).config = s.config := rfl
@[simp] theorem accept_acc (s : State) :
    (accept s).acc = s.acc := rfl
@[simp] theorem accept_mode (s : State) :
    (accept s).mode = s.mode := rfl
@[simp] theorem accept_cmdPort (s : State) :
    (accept s).cmdPort = none := rfl
@[simp] theorem accept_respPort (s : State) :
    (accept s).respPort = s.respPort := rfl

@[simp] theorem respond_config (code : Status) (payload : List Byte) (s : State) :
    (respond code payload s).config = s.config := rfl
@[simp] theorem respond_acc (code : Status) (payload : List Byte) (s : State) :
    (respond code payload s).acc = s.acc := rfl
@[simp] theorem respond_mode (code : Status) (payload : List Byte) (s : State) :
    (respond code payload s).mode = s.mode := rfl
@[simp] theorem respond_cmdPort (code : Status) (payload : List Byte) (s : State) :
    (respond code payload s).cmdPort = s.cmdPort := rfl
@[simp] theorem respond_respPort (code : Status) (payload : List Byte) (s : State) :
    (respond code payload s).respPort = some (statusCode code :: payload) := rfl

@[simp] theorem raise_config (e : Status) (s : State) :
    (raise e s).config = s.config := rfl
@[simp] theorem raise_acc (e : Status) (s : State) :
    (raise e s).acc = s.acc := rfl
@[simp] theorem raise_mode (e : Status) (s : State) :
    (raise e s).mode = s.mode := rfl
@[simp] theorem raise_cmdPort (e : Status) (s : State) :
    (raise e s).cmdPort = s.cmdPort := rfl
@[simp] theorem raise_respPort (e : Status) (s : State) :
    (raise e s).respPort = some [statusCode e] := rfl

@[simp] theorem setAcc_config (acc : ChecksumState) (s : State) :
    (setAcc acc s).config = s.config := rfl
@[simp] theorem setAcc_acc (acc : ChecksumState) (s : State) :
    (setAcc acc s).acc = acc := rfl
@[simp] theorem setAcc_mode (acc : ChecksumState) (s : State) :
    (setAcc acc s).mode = s.mode := rfl
@[simp] theorem setAcc_cmdPort (acc : ChecksumState) (s : State) :
    (setAcc acc s).cmdPort = s.cmdPort := rfl
@[simp] theorem setAcc_respPort (acc : ChecksumState) (s : State) :
    (setAcc acc s).respPort = s.respPort := rfl

@[simp] theorem placeCommand_config (cmd : List Byte) (s : State) :
    (placeCommand cmd s).config = s.config := rfl
@[simp] theorem placeCommand_acc (cmd : List Byte) (s : State) :
    (placeCommand cmd s).acc = s.acc := rfl
@[simp] theorem placeCommand_mode (cmd : List Byte) (s : State) :
    (placeCommand cmd s).mode = s.mode := rfl
@[simp] theorem placeCommand_cmdPort (cmd : List Byte) (s : State) :
    (placeCommand cmd s).cmdPort = some cmd := rfl
@[simp] theorem placeCommand_respPort (cmd : List Byte) (s : State) :
    (placeCommand cmd s).respPort = none := rfl

@[simp] theorem idle_config (s : State) :
    (s.idle).config = s.config := rfl
@[simp] theorem idle_acc (s : State) :
    (s.idle).acc = s.acc := rfl
@[simp] theorem idle_mode (s : State) :
    (s.idle).mode = s.mode := rfl
@[simp] theorem idle_cmdPort (s : State) :
    (s.idle).cmdPort = none := rfl
@[simp] theorem idle_respPort (s : State) :
    (s.idle).respPort = none := rfl

@[simp] theorem resetWith_config (c : Configuration) :
    (State.resetWith c).config = c := rfl
@[simp] theorem resetWith_acc (c : Configuration) :
    (State.resetWith c).acc = ⟨0, 0, 0⟩ := rfl
@[simp] theorem resetWith_mode (c : Configuration) :
    (State.resetWith c).mode = modeAtReset c := rfl
@[simp] theorem resetWith_cmdPort (c : Configuration) :
    (State.resetWith c).cmdPort = none := rfl
@[simp] theorem resetWith_respPort (c : Configuration) :
    (State.resetWith c).respPort = none := rfl

end Sys2Proof.Machine
end

