-- ==== Sys2Proof/Laws/Ops.lean ====
section
/-! SUPPORT. What the operations every command shares can do, said once. -/

namespace Sys2Proof.Machine

theorem setAcc_self (s : State) : setAcc s.acc s = s := rfl

theorem raise_eq_respond (e : Status) (s : State) : raise e s = respond e [] s := rfl

theorem answering_fatal {s : State} (i : Instr) (body : CkForm → State) (hm : s.mode = .fatal) :
    answering i s body = .next (raise .fatal s) := by
  simp [answering, hm]

theorem answering_ready {s : State} {form : CkForm} (i : Instr) (body : CkForm → State)
    (hm : s.mode = .ready) (hf : configForm s.config = some form) :
    answering i s body = .next (if i.wf then body form else raise .malformedCommand s) := by
  simp [answering, hm, hf]

/-- A guarded command that answers did one of three things. -/
theorem answering_next {i : Instr} {s t : State} {body : CkForm → State}
    (h : answering i s body = .next t) :
    (s.mode = .fatal ∧ t = raise .fatal s) ∨
      (s.mode = .ready ∧ ∃ form, configForm s.config = some form ∧
        ((i.wf = true ∧ t = body form) ∨ (i.wf = false ∧ t = raise .malformedCommand s))) := by
  unfold answering at h
  split at h
  next hm => exact .inl ⟨hm, by simpa using h.symm⟩
  next => cases h
  next form hm hf =>
    refine .inr ⟨hm, form, hf, ?_⟩
    by_cases hw : i.wf = true
    · exact .inl ⟨hw, by simpa [hw] using h.symm⟩
    · exact .inr ⟨by simpa using hw, by simpa [hw] using h.symm⟩

end Sys2Proof.Machine
end

