-- ==== Sys2Proof/Laws/Checksum.lean ====
section
/-! SUPPORT. The position of a fold and the range it ends in (spec/10_state.md R25). -/

namespace Sys2Proof.Machine

@[simp] theorem fold_pos (c : Configuration) (acc : ChecksumState) (b : Byte) :
    (fold c acc b).pos = acc.pos + 1 := rfl

theorem foldl_fold_pos (c : Configuration) (b : List Byte) :
    ∀ acc : ChecksumState, (b.foldl (fold c) acc).pos = acc.pos + b.length := by
  induction b with
  | nil => simp
  | cons x b ih => intro acc; simp [ih]; omega

theorem seed_pos_le (c : Configuration) (form : CkForm) : (seed c form).pos ≤ 2 := by
  cases form <;> simp [seed]

/-- A computation over the 15 input bytes ends at position 15. -/
theorem ckState_pos (c : Configuration) (form : CkForm) {b : List Byte} (hb : b.length = ckInputLen) :
    (ckState c form b).pos = 15 := by
  have := seed_pos_le c form
  simp only [ckState, foldl_fold_pos, List.length_drop, hb, ckInputLen]
  omega

end Sys2Proof.Machine
end

