-- ==== Sys2Proof/Laws/Operands.lean ====
section
/-! SUPPORT. Splitting and joining bytes, and packing and reading record groups, are inverse (spec/30_encoding.md R66). -/

namespace Sys2Proof.Machine

theorem highByte_eq (v : Half) : highByte v = (v >>> 8).setWidth 8 := by
  apply BitVec.eq_of_getLsbD_eq
  intro i h
  simp [highByte, h]

theorem lowByte_eq (v : Half) : lowByte v = v.setWidth 8 := by
  apply BitVec.eq_of_getLsbD_eq
  intro i h
  simp [lowByte, h]

@[simp] theorem joinBytes_split (v : Half) : joinBytes (highByte v) (lowByte v) = v := by
  apply BitVec.eq_of_getLsbD_eq
  intro i hi
  simp only [joinBytes, highByte, lowByte, BitVec.getLsbD_append, BitVec.getLsbD_extractLsb']
  by_cases h : i < 8 <;> simp [h]
  simp [show i - 8 < 8 by omega, show 8 + (i - 8) = i by omega]

@[simp] theorem highByte_joinBytes (hi lo : Byte) : highByte (joinBytes hi lo) = hi := by
  apply BitVec.eq_of_getLsbD_eq
  intro i h
  simp only [joinBytes, highByte, BitVec.getLsbD_extractLsb', BitVec.getLsbD_append]
  simp [h]

@[simp] theorem lowByte_joinBytes (hi lo : Byte) : lowByte (joinBytes hi lo) = lo := by
  apply BitVec.eq_of_getLsbD_eq
  intro i h
  simp only [joinBytes, lowByte, BitVec.getLsbD_extractLsb', BitVec.getLsbD_append]
  simp [h]

/-- Big-endian: the first byte counts 256 (spec/20_memory.md R45). -/
theorem joinBytes_toNat (hi lo : Byte) : (joinBytes hi lo).toNat = hi.toNat * 256 + lo.toNat := by
  simp only [joinBytes, BitVec.toNat_append]
  rw [← Nat.shiftLeft_add_eq_or_of_lt (by omega)]
  simp [Nat.shiftLeft_eq]

@[simp] theorem length_pack (r : Record) : (pack r).length = 3 := rfl

theorem length_flatMap_pack (rs : List Record) : (rs.flatMap pack).length = 3 * rs.length := by
  induction rs with
  | nil => rfl
  | cons r rs ih => simp [ih]; omega

@[simp] theorem recordsOf_flatMap_pack (rs : List Record) : recordsOf (rs.flatMap pack) = rs := by
  induction rs with
  | nil => rfl
  | cons r rs ih => simp [pack, recordsOf, ih]

/-- A string of `n` groups is the packing of the `n` records read from it. -/
theorem flatMap_pack_recordsOf (n : Nat) :
    ∀ s : List Byte, s.length = 3 * n → (recordsOf s).flatMap pack = s ∧ (recordsOf s).length = n := by
  induction n with
  | zero => intro s h; cases s <;> simp_all [recordsOf]
  | succ n ih =>
    intro s h
    match s, h with
    | a :: b :: c :: s, h =>
      have := ih s (by simp at h; omega)
      simp [recordsOf, pack, this]

end Sys2Proof.Machine
end

