-- ==== Sys2Proof/Laws/Codec.lean ====
section
/-! SUPPORT. The sizes of the codec's byte strings, and what a command can do (spec/41_frame_codec.md). -/

namespace Sys2Proof.Machine

/-- A frame's checksum input has 15 bytes when the records fit. -/
theorem length_frameBody (c : Configuration) (type : Byte) {rs : List Record} (h : rs.length ≤ maxRecords) :
    (frameBody c type rs).length = ckInputLen := by
  simp only [maxRecords] at h
  simp only [frameBody, List.length_cons, length_flatMap_pack, List.length_append, List.length_replicate,
    maxRecords, ckInputLen]
  omega

/-- EN's checks pass only on records that fit. -/
theorem length_le_of_encodeError_none {c : Configuration} {type : Byte} {rs : List Record}
    (h : encodeError c type rs = none) : rs.length ≤ maxRecords := by
  unfold encodeError at h
  split at h
  · cases h
  · omega

/-- EN answers the body of R134 with its checksum, or the first failed check. -/
theorem en_cases (c : Configuration) (form : CkForm) (type : Byte) (rs : List Record) :
    (∃ e, encodeError c type rs = some e ∧ en c form type rs = .error e) ∨
      (encodeError c type rs = none ∧
        en c form type rs = .ok (frameBody c type rs ++
          [(ck c form (frameBody c type rs)).1, (ck c form (frameBody c type rs)).2])) := by
  unfold en
  cases encodeError c type rs <;> simp

/-- DE answers the message of R135, or the first failed check. -/
theorem de_cases (c : Configuration) (form : CkForm) (buf : List Byte) :
    (∃ e, decodeError c form buf = some e ∧ de c form buf = .error e) ∨
      (decodeError c form buf = none ∧ de c form buf = .ok (frameMessage buf)) := by
  unfold de
  cases decodeError c form buf <;> simp

/-- Everything a command can do: it answers on the response port, alone with an error, and leaves the accumulator as it
was or as a checksum computation over 15 bytes left it. -/
theorem exec_next {i : Instr} {s t : State} (h : exec i s = .next t) :
    ∃ (status : Status) (payload : List Byte) (acc : ChecksumState),
      t = respond status payload (setAcc acc s) ∧ (status ≠ .ok → payload = []) ∧
        (acc = s.acc ∨ ∃ form b, configForm s.config = some form ∧ b.length = ckInputLen ∧
          acc = ckState s.config form b) := by
  have plain : ∀ e, ∃ (status : Status) (payload : List Byte) (acc : ChecksumState),
      raise e s = respond status payload (setAcc acc s) ∧ (status ≠ .ok → payload = []) ∧
        (acc = s.acc ∨ ∃ form b, configForm s.config = some form ∧ b.length = ckInputLen ∧
          acc = ckState s.config form b) :=
    fun e => ⟨e, [], s.acc, rfl, fun _ => rfl, .inl rfl⟩
  cases i with
  | cksum body =>
    obtain ⟨-, rfl⟩ | ⟨-, form, hf, ⟨hw, rfl⟩ | ⟨-, rfl⟩⟩ := answering_next h
    · exact plain _
    · exact ⟨.ok, _, _, rfl, fun h => absurd rfl h, .inr ⟨form, body, hf, by simpa [Instr.wf] using hw, rfl⟩⟩
    · exact plain _
  | verify frame =>
    obtain ⟨-, rfl⟩ | ⟨-, form, hf, ⟨hw, rfl⟩ | ⟨-, rfl⟩⟩ := answering_next h
    · exact plain _
    · exact ⟨.ok, _, _, rfl, fun h => absurd rfl h, .inr ⟨form, frame.take ckInputLen, hf,
        by simp [Instr.wf, frameLen] at hw; simp [ckInputLen, hw], rfl⟩⟩
    · exact plain _
  | encode type rs =>
    obtain ⟨-, rfl⟩ | ⟨-, form, hf, ⟨-, rfl⟩ | ⟨-, rfl⟩⟩ := answering_next h
    · exact plain _
    · obtain ⟨e, -, he⟩ | ⟨hn, he⟩ := en_cases s.config form type rs
      · simp only [he]; exact plain _
      · simp only [he]
        exact ⟨.ok, _, _, rfl, fun h => absurd rfl h, .inr ⟨form, _, hf,
          length_frameBody _ _ (length_le_of_encodeError_none hn), rfl⟩⟩
    · exact plain _
  | decode buf =>
    obtain ⟨-, rfl⟩ | ⟨-, form, hf, ⟨-, rfl⟩ | ⟨-, rfl⟩⟩ := answering_next h
    · exact plain _
    · have touched : ∃ acc, (if decodeFolds s.config buf then
          setAcc (ckState s.config form (buf.take ckInputLen)) s else s) = setAcc acc s ∧
          (acc = s.acc ∨ ∃ form b, configForm s.config = some form ∧ b.length = ckInputLen ∧
            acc = ckState s.config form b) := by
        by_cases hd : decodeFolds s.config buf = true
        · refine ⟨_, by simp only [hd, if_true], .inr ⟨form, buf.take ckInputLen, hf, ?_, rfl⟩⟩
          simp [decodeFolds, frameLen] at hd
          simp [ckInputLen, hd.1.1]
        · exact ⟨s.acc, by simp only [hd]; rfl, .inl rfl⟩
      obtain ⟨acc, ht, ha⟩ := touched
      obtain ⟨e, -, he⟩ | ⟨-, he⟩ := de_cases s.config form buf
      · simp only [he, ht]; exact ⟨e, [], acc, rfl, fun _ => rfl, ha⟩
      · simp only [he, ht]; exact ⟨.ok, _, acc, rfl, fun h => absurd rfl h, ha⟩
    · exact plain _
  | lutRead index =>
    obtain ⟨-, rfl⟩ | ⟨-, form, hf, ⟨-, rfl⟩ | ⟨-, rfl⟩⟩ := answering_next h
    · exact plain _
    · exact ⟨.ok, _, s.acc, rfl, fun h => absurd rfl h, .inl rfl⟩
    · exact plain _

end Sys2Proof.Machine
end

