-- ==== Sys2Proof/Laws/Command.lean ====
section
/-! SUPPORT. What one step of the block can do (spec/20_memory.md R49, spec/60_exceptions.md R180). -/

namespace Sys2Proof.Machine

/-- Nothing to accept, or a response not yet taken: the block waits. -/
theorem step_waits {s : State} (h : s.cmdPort = none ∨ s.respPort ≠ none) : step s = .next s := by
  unfold step blockStep
  split
  next hc hr => simp [hc, hr] at h
  next => rfl

/-- A presented command is accepted and run. -/
theorem step_accepts {s : State} {cmd : List Byte} (hc : s.cmdPort = some cmd) (hr : s.respPort = none) :
    step s = runCommand cmd (accept s) := by
  simp [step, blockStep, hc, hr]

/-- Everything running accepted command bytes can do. -/
theorem runCommand_next {cmd : List Byte} {s t : State} (h : runCommand cmd s = .next t) :
    ∃ (status : Status) (payload : List Byte) (acc : ChecksumState),
      t = respond status payload (setAcc acc s) ∧ (status ≠ .ok → payload = []) ∧
        (acc = s.acc ∨ ∃ form b, configForm s.config = some form ∧ b.length = ckInputLen ∧
          acc = ckState s.config form b) := by
  unfold runCommand at h
  split at h
  · cases h; exact ⟨.fatal, [], s.acc, rfl, fun _ => rfl, .inl rfl⟩
  · split at h
    · cases h; exact ⟨.illegalCommand, [], s.acc, rfl, fun _ => rfl, .inl rfl⟩
    · cases h; exact ⟨.malformedCommand, [], s.acc, rfl, fun _ => rfl, .inl rfl⟩
    · exact exec_next h

/-- One step either waits or answers a presented command. -/
theorem step_next {s t : State} (h : step s = .next t) :
    ((s.cmdPort = none ∨ s.respPort ≠ none) ∧ t = s) ∨
      ∃ cmd, s.cmdPort = some cmd ∧ s.respPort = none ∧
        ∃ (status : Status) (payload : List Byte) (acc : ChecksumState),
          t = respond status payload (setAcc acc (accept s)) ∧ (status ≠ .ok → payload = []) ∧
            (acc = s.acc ∨ ∃ form b, configForm s.config = some form ∧ b.length = ckInputLen ∧
              acc = ckState s.config form b) := by
  cases hc : s.cmdPort with
  | none => exact .inl ⟨.inl rfl, by simpa [step_waits (.inl hc)] using h.symm⟩
  | some cmd =>
    cases hr : s.respPort with
    | some r => exact .inl ⟨.inr (by simp), by simpa [step_waits (s := s) (.inr (by simp [hr]))] using h.symm⟩
    | none =>
      rw [step_accepts hc hr] at h
      exact .inr ⟨cmd, rfl, rfl, runCommand_next h⟩

/-- In a state whose form is legal, running command bytes always answers. -/
theorem runCommand_answers {s : State} {form : CkForm} (cmd : List Byte)
    (hf : configForm s.config = some form) : ∃ t, runCommand cmd s = .next t := by
  have guarded : ∀ (i : Instr) (body : CkForm → State), ∃ t, answering i s body = .next t := by
    intro i body
    unfold answering
    split
    · exact ⟨_, rfl⟩
    next hn => simp [hf] at hn
    · exact ⟨_, rfl⟩
  unfold runCommand
  split
  · exact ⟨_, rfl⟩
  · split
    · exact ⟨_, rfl⟩
    · exact ⟨_, rfl⟩
    next i _ => cases i <;> exact guarded _ _

end Sys2Proof.Machine
end

