-- ==== Sys2Proof/Laws/Decode.lean ====
section
/-! SUPPORT. The decoder, opcode by opcode (spec/30_encoding.md R71 to R78): later proofs cite these and do not unfold it. -/

namespace Sys2Proof

theorem decode_nil : decode [] = .error .malformed := rfl

theorem decode_cksum (body : List Byte) :
    decode (1#8 :: body) = if body.length = 15 then .ok (.cksum body) else .error .malformed := rfl

theorem decode_verify (frame : List Byte) :
    decode (2#8 :: frame) = if frame.length = 17 then .ok (.verify frame) else .error .malformed := rfl

theorem decode_encode (type n : Byte) (groups : List Byte) :
    decode (3#8 :: type :: n :: groups) =
      if groups.length = 3 * n.toNat then .ok (.encode type (Machine.recordsOf groups))
      else .error .malformed := rfl

theorem decode_encode_short {rest : List Byte} (h : rest.length < 2) :
    decode (3#8 :: rest) = .error .malformed := by
  match rest, h with
  | [], _ => rfl
  | [_], _ => rfl

theorem decode_decode (hi lo : Byte) (buffer : List Byte) :
    decode (4#8 :: hi :: lo :: buffer) =
      if buffer.length = (Machine.joinBytes hi lo).toNat then .ok (.decode buffer)
      else .error .malformed := rfl

theorem decode_decode_short {rest : List Byte} (h : rest.length < 2) :
    decode (4#8 :: rest) = .error .malformed := by
  match rest, h with
  | [], _ => rfl
  | [_], _ => rfl

theorem decode_lutRead (index : Byte) : decode [5#8, index] = .ok (.lutRead index) := rfl

theorem decode_lutRead_wrong {rest : List Byte} (h : rest.length ≠ 1) :
    decode (5#8 :: rest) = .error .malformed := by
  match rest, h with
  | [], _ => rfl
  | [_], h => simp at h
  | _ :: _ :: _, _ => rfl

theorem decode_illegal {op : Byte} (rest : List Byte) (h : opcodeOfByte op = none) :
    decode (op :: rest) = .error .illegal := by
  simp [decode, h]

/-- An opcode byte is one of the five or illegal (R70, R77). -/
theorem opcode_cases (op : Byte) :
    op = 1#8 ∨ op = 2#8 ∨ op = 3#8 ∨ op = 4#8 ∨ op = 5#8 ∨
      ((op ≠ 1#8 ∧ op ≠ 2#8 ∧ op ≠ 3#8 ∧ op ≠ 4#8 ∧ op ≠ 5#8) ∧ opcodeOfByte op = none) := by
  unfold opcodeOfByte
  split_ifs <;> simp_all

end Sys2Proof
end

