-- ==== Sys2Proof/Laws/Exec.lean ====
section
/-! SUPPORT. What each command answers in a READY state with a legal form, in the model's own functions: one lemma per
outcome, so that no later proof unfolds exec. -/

namespace Sys2Proof.Machine

variable {s : State} {form : CkForm}

theorem exec_fatal (i : Instr) (hm : s.mode = .fatal) : exec i s = .next (raise .fatal s) := by
  cases i <;> exact answering_fatal _ _ hm

theorem exec_lutRead (index : Byte) (hm : s.mode = .ready) (hf : configForm s.config = some form) :
    exec (.lutRead index) s =
      .next (respond .ok [highByte (lutRead s.config index), lowByte (lutRead s.config index)] s) := by
  simp [exec, execLutRead, answering_ready _ _ hm hf, Instr.wf]

theorem exec_cksum {body : List Byte} (hm : s.mode = .ready) (hf : configForm s.config = some form)
    (hb : body.length = ckInputLen) :
    exec (.cksum body) s = .next (respond .ok [(ck s.config form body).1, (ck s.config form body).2]
      (setAcc (ckState s.config form body) s)) := by
  simp [exec, execCksum, answering_ready _ _ hm hf, Instr.wf, hb]

theorem exec_verify {frame : List Byte} (hm : s.mode = .ready) (hf : configForm s.config = some form)
    (hl : frame.length = frameLen) :
    exec (.verify frame) s = .next (respond .ok [verdictByte (vf s.config form frame)]
      (setAcc (ckState s.config form (frame.take ckInputLen)) s)) := by
  simp [exec, execVerify, answering_ready _ _ hm hf, Instr.wf, hl]

theorem exec_encode_error {type : Byte} {rs : List Record} {e : Status} (hm : s.mode = .ready)
    (hf : configForm s.config = some form) (hl : rs.length < 2 ^ 8)
    (he : encodeError s.config type rs = some e) : exec (.encode type rs) s = .next (raise e s) := by
  simp only [exec, execEncode, answering_ready _ _ hm hf, Instr.wf, hl, decide_true, if_true, en, he]

theorem exec_encode_ok {type : Byte} {rs : List Record} (hm : s.mode = .ready)
    (hf : configForm s.config = some form) (he : encodeError s.config type rs = none) :
    exec (.encode type rs) s = .next (respond .ok (frameBody s.config type rs ++
        [(ck s.config form (frameBody s.config type rs)).1, (ck s.config form (frameBody s.config type rs)).2])
      (setAcc (ckState s.config form (frameBody s.config type rs)) s)) := by
  have hl : rs.length < 2 ^ 8 := lt_of_le_of_lt (length_le_of_encodeError_none he) (by decide)
  simp only [exec, execEncode, answering_ready _ _ hm hf, Instr.wf, hl, decide_true, if_true, en, he]

/-- DE computes nothing before its length and header checks pass. -/
theorem not_decodeFolds {c : Configuration} {buf : List Byte} {e : Status}
    (he : decodeError c form buf = some e) (hn : e ≠ .checksumMismatch) : decodeFolds c buf = false := by
  unfold decodeError at he
  split_ifs at he <;> simp_all [decodeFolds]

theorem exec_decode_error {buf : List Byte} {e : Status} (hm : s.mode = .ready)
    (hf : configForm s.config = some form) (hl : buf.length < 2 ^ 16)
    (he : decodeError s.config form buf = some e) (hn : e ≠ .checksumMismatch) :
    exec (.decode buf) s = .next (raise e s) := by
  simp only [exec, execDecode, answering_ready _ _ hm hf, Instr.wf, hl, decide_true, if_true, de, he,
    not_decodeFolds he hn]
  rfl

theorem exec_decode_mismatch {buf : List Byte} (hm : s.mode = .ready)
    (hf : configForm s.config = some form) (hl : buf.length < 2 ^ 16)
    (he : decodeError s.config form buf = some .checksumMismatch) :
    exec (.decode buf) s =
      .next (raise .checksumMismatch (setAcc (ckState s.config form (buf.take ckInputLen)) s)) := by
  have hd : decodeFolds s.config buf = true := by
    unfold decodeError at he
    split_ifs at he <;> simp_all [decodeFolds]
  simp only [exec, execDecode, answering_ready _ _ hm hf, Instr.wf, hl, decide_true, if_true, de, he, hd]

theorem exec_decode_ok {buf : List Byte} (hm : s.mode = .ready) (hf : configForm s.config = some form)
    (hl : buf.length < 2 ^ 16) (he : decodeError s.config form buf = none) :
    exec (.decode buf) s = .next (respond .ok (messageBytes (frameMessage buf))
      (setAcc (if decodeFolds s.config buf then ckState s.config form (buf.take ckInputLen) else s.acc) s)) := by
  simp only [exec, execDecode, answering_ready _ _ hm hf, Instr.wf, hl, decide_true, if_true, de, he]
  by_cases hd : decodeFolds s.config buf = true <;> simp only [hd] <;> rfl

end Sys2Proof.Machine
end

