-- ==== Sys2Proof/Laws/Parameters.lean ====
section
/-! SUPPORT. The fast admission test is the property of spec/40_checksum.md R102, and MODE at reset in those terms. -/

namespace Sys2Proof.Machine

/-- Linearity of a table of `2 ^ k` entries, with its first entry zero. -/
def LinearTable (k : Nat) (lut : List Half) : Prop :=
  lut.length = 2 ^ k ∧ lut.getD 0 0 = 0 ∧
    ∀ i j : Nat, i < 2 ^ k → j < 2 ^ k → lut.getD (i ^^^ j) 0 = lut.getD i 0 ^^^ lut.getD j 0


theorem getD_take_lt (l : List Half) (n i : Nat) (h : i < n) : (l.take n).getD i 0 = l.getD i 0 := by
  simp [List.getD_eq_getElem?_getD, h]

theorem getD_drop (l : List Half) (n i : Nat) : (l.drop n).getD i 0 = l.getD (n + i) 0 := by
  simp [List.getD_eq_getElem?_getD, List.getElem?_drop]

theorem top_xor_low (k i : Nat) (h : i < 2 ^ k) : 2 ^ k ^^^ i = 2 ^ k + i := by
  have := Nat.two_pow_add_eq_or_of_lt h 1
  rw [Nat.mul_one] at this
  rw [this]
  apply Nat.eq_of_testBit_eq
  intro m
  simp only [Nat.testBit_xor, Nat.testBit_or, Nat.testBit_two_pow]
  by_cases hm : k = m
  · subst hm; simp [Nat.testBit_lt_two_pow h]
  · simp [hm]

/-- The upper half of a table is its lower half plus its own first entry. -/
theorem high_eq_iff (k : Nat) (lut : List Half) (hl : lut.length = 2 ^ (k + 1)) :
    lut.drop (2 ^ k) = (lut.take (2 ^ k)).map (· ^^^ (lut.drop (2 ^ k)).headD 0) ↔
      ∀ i < 2 ^ k, lut.getD (2 ^ k + i) 0 = lut.getD i 0 ^^^ lut.getD (2 ^ k) 0 := by
  have hp : 2 ^ (k + 1) = 2 ^ k + 2 ^ k := by rw [Nat.pow_succ]; omega
  have hd : (lut.drop (2 ^ k)).headD 0 = lut.getD (2 ^ k) 0 := by
    simp [List.headD_eq_head?_getD, List.head?_drop, List.getD_eq_getElem?_getD]
  rw [hd]
  constructor
  · intro h i hi
    rw [← getD_drop, h]
    have : i < (lut.take (2 ^ k)).length := by simp; omega
    simp [List.getD_eq_getElem?_getD, hi]
    simp [List.getElem?_eq_getElem (show i < lut.length by omega)]
  · intro h
    apply List.ext_getElem
    · simp; omega
    · intro i h1 h2
      have hi : i < 2 ^ k := by simp at h2; omega
      have h3 := h i hi
      simp [List.getD_eq_getElem?_getD] at h3
      rw [List.getElem?_eq_getElem (by omega), List.getElem?_eq_getElem (by omega)] at h3
      simpa [List.getD_eq_getElem?_getD] using h3

/-- A table is linear when its lower half is and its upper half repeats it, moved by its own first entry. -/
theorem linearTable_succ_iff (k : Nat) (lut : List Half) :
    LinearTable (k + 1) lut ↔ LinearTable k (lut.take (2 ^ k)) ∧
      lut.drop (2 ^ k) = (lut.take (2 ^ k)).map (· ^^^ (lut.drop (2 ^ k)).headD 0) := by
  have hp : 2 ^ (k + 1) = 2 ^ k + 2 ^ k := by rw [Nat.pow_succ]; omega
  have hpos : 0 < 2 ^ k := Nat.two_pow_pos k
  simp only [LinearTable]
  constructor
  · rintro ⟨hl, h0, hlin⟩
    refine ⟨⟨by simp; omega, by rwa [getD_take_lt _ _ _ hpos], ?_⟩, ?_⟩
    · intro i j hi hj
      rw [getD_take_lt _ _ _ hi, getD_take_lt _ _ _ hj, getD_take_lt _ _ _ (Nat.xor_lt_two_pow hi hj)]
      exact hlin i j (by omega) (by omega)
    · rw [high_eq_iff k lut hl]
      intro i hi
      rw [← top_xor_low _ _ hi, hlin _ _ (by omega) (by omega)]
      ac_rfl
  · rintro ⟨⟨hl, h0, hlin⟩, hhigh⟩
    have hlen : lut.length = 2 ^ (k + 1) := by
      have := congrArg List.length hhigh
      simp at this hl; omega
    rw [high_eq_iff k lut hlen] at hhigh
    rw [getD_take_lt _ _ _ hpos] at h0
    have low : ∀ i j, i < 2 ^ k → j < 2 ^ k →
        lut.getD (i ^^^ j) 0 = lut.getD i 0 ^^^ lut.getD j 0 := by
      intro i j hi hj
      have := hlin i j hi hj
      rwa [getD_take_lt _ _ _ hi, getD_take_lt _ _ _ hj,
        getD_take_lt _ _ _ (Nat.xor_lt_two_pow hi hj)] at this
    have split : ∀ i, i < 2 ^ (k + 1) → i < 2 ^ k ∨ ∃ i', i' < 2 ^ k ∧ i = 2 ^ k ^^^ i' := by
      intro i hi
      by_cases h : i < 2 ^ k
      · exact .inl h
      · exact .inr ⟨i - 2 ^ k, by omega, by rw [top_xor_low _ _ (by omega)]; omega⟩
    have up : ∀ i, i < 2 ^ k → lut.getD (2 ^ k ^^^ i) 0 = lut.getD i 0 ^^^ lut.getD (2 ^ k) 0 := by
      intro i hi; rw [top_xor_low _ _ hi]; exact hhigh i hi
    refine ⟨hlen, h0, ?_⟩
    intro i j hi hj
    rcases split i hi with hi | ⟨i, hi', rfl⟩ <;> rcases split j hj with hj | ⟨j, hj', rfl⟩
    · exact low i j hi hj
    · rw [show i ^^^ (2 ^ k ^^^ j) = 2 ^ k ^^^ (i ^^^ j) by ac_rfl, up _ (Nat.xor_lt_two_pow hi hj'),
        up _ hj', low i j hi hj']
      ac_rfl
    · rw [show (2 ^ k ^^^ i) ^^^ j = 2 ^ k ^^^ (i ^^^ j) by ac_rfl, up _ (Nat.xor_lt_two_pow hi' hj),
        up _ hi', low i j hi' hj]
      ac_rfl
    · rw [show (2 ^ k ^^^ i) ^^^ (2 ^ k ^^^ j) = (2 ^ k ^^^ 2 ^ k) ^^^ (i ^^^ j) by ac_rfl, Nat.xor_self,
        Nat.zero_xor, up _ hi', up _ hj', low i j hi' hj',
        show (lut.getD i 0 ^^^ lut.getD (2 ^ k) 0) ^^^ (lut.getD j 0 ^^^ lut.getD (2 ^ k) 0)
          = (lut.getD i 0 ^^^ lut.getD j 0) ^^^ (lut.getD (2 ^ k) 0 ^^^ lut.getD (2 ^ k) 0) by ac_rfl]
      simp

@[simp] theorem length_spanTable (basis : List Half) : (spanTable basis).length = 2 ^ basis.length := by
  induction basis with
  | nil => rfl
  | cons b basis ih => simp [spanTable, ih, Nat.pow_succ]; omega

@[simp] theorem length_basisOf (lut : List Half) (k : Nat) : (basisOf lut k).length = k := by
  induction k with
  | zero => rfl
  | succ k ih => simp [basisOf, ih]

/-- The lower entries of a table give the same lower basis. -/
theorem basisOf_take (lut : List Half) (k : Nat) : ∀ m ≤ k, basisOf (lut.take (2 ^ k)) m = basisOf lut m := by
  intro m hm
  induction m with
  | zero => rfl
  | succ m ih =>
    rw [basisOf, basisOf, ih (by omega), getD_take_lt _ _ _ (Nat.pow_lt_pow_right (by omega) (by omega))]

/-- By induction on the number of index bits: the linear tables are the generated ones. -/
theorem spanTable_iff (k : Nat) : ∀ lut : List Half, lut = spanTable (basisOf lut k) ↔ LinearTable k lut := by
  induction k with
  | zero =>
    intro lut
    simp only [basisOf, spanTable, LinearTable]
    constructor
    · rintro rfl
      refine ⟨rfl, rfl, ?_⟩
      intro i j hi hj
      obtain rfl : i = 0 := by omega
      obtain rfl : j = 0 := by omega
      rfl
    · rintro ⟨hl, h0, -⟩
      match lut, hl with
      | [e], _ => simpa using h0
  | succ k ih =>
    intro lut
    have hd : (lut.drop (2 ^ k)).headD 0 = lut.getD (2 ^ k) 0 := by
      simp [List.headD_eq_head?_getD, List.head?_drop, List.getD_eq_getElem?_getD]
    rw [linearTable_succ_iff, ← ih, basisOf_take lut k k (le_refl k), hd, basisOf, spanTable]
    constructor
    · intro h
      have ht : lut.take (2 ^ k) = spanTable (basisOf lut k) := by
        conv => lhs; rw [h]
        exact List.take_left' (by simp)
      refine ⟨ht, ?_⟩
      rw [ht]
      conv => lhs; rw [h]
      exact List.drop_left' (by simp)
    · rintro ⟨ht, hdrop⟩
      rw [← ht, ← hdrop, List.take_append_drop]

/-- The test reset runs is the named property of R102. -/
theorem lutAdmitted_iff (lut : List Half) : lutAdmitted lut = true ↔ LutWellFormed lut := by
  rw [lutAdmitted, beq_iff_eq, spanTable_iff]
  rfl

/-- A field encoding names a form unless it is 3 (R22). -/
theorem formOfBits_isSome (v : BitVec 2) : (formOfBits v).isSome = true ↔ v ≠ 3 := by
  revert v; decide

/-- Each form has one field encoding (R22). -/
@[simp] theorem formOfBits_formBits (form : CkForm) : formOfBits (formBits form) = some form := by
  cases form <;> rfl

/-- MODE at reset in the terms of R203. -/
theorem modeAtReset_ready (c : Configuration) :
    modeAtReset c = .ready ↔ LutWellFormed c.lut ∧ (configForm c).isSome = true := by
  unfold modeAtReset configLegal
  split <;> simp_all [lutAdmitted_iff]

/-- A block that is READY by its configuration has a legal form. -/
theorem configForm_of_ready {c : Configuration} (h : modeAtReset c = .ready) :
    ∃ form, configForm c = some form :=
  Option.isSome_iff_exists.mp ((modeAtReset_ready c).mp h).2

end Sys2Proof.Machine
end

