-- ==== Sys2Proof/Laws/PerInstr.lean ====
section
/-! SUPPORT. A statement about every command as syntax, one lemma per constructor: its encoding starts with its opcode
byte and has the length spec/30_encoding.md R70 gives. -/

namespace Sys2Proof.Laws.EncodingLength

/-- The opcode byte of a command and its total length (R70). -/
def layout : Instr → Byte × Nat
  | .cksum _ => (0x01, 16)
  | .verify _ => (0x02, 18)
  | .encode _ records => (0x03, 3 + 3 * records.length)
  | .decode buffer => (0x04, 3 + buffer.length)
  | .lutRead _ => (0x05, 2)

/-- A well-formed command's bytes start with its opcode and have its length. -/
def Statement (i : Instr) : Prop :=
  i.wf = true → (encode i).head? = some (layout i).1 ∧ (encode i).length = (layout i).2

theorem cksum (body : List Byte) : Statement (.cksum body) := by
  intro h
  simp [Instr.wf, Machine.ckInputLen] at h
  simp [encode, layout, opcodeByte, h]

theorem verify (frame : List Byte) : Statement (.verify frame) := by
  intro h
  simp [Instr.wf, Machine.frameLen] at h
  simp [encode, layout, opcodeByte, h]

theorem encode (type : Byte) (records : List Record) : Statement (.encode type records) := by
  intro _
  simp only [Sys2Proof.encode, layout, opcodeByte, List.head?_cons, List.length_cons, Machine.length_flatMap_pack, true_and]
  omega

theorem decode (buffer : List Byte) : Statement (.decode buffer) := by
  intro _
  simp only [Sys2Proof.encode, layout, opcodeByte, List.head?_cons, List.length_cons, true_and]
  omega

theorem lutRead (index : Byte) : Statement (.lutRead index) := by
  intro _
  exact ⟨rfl, rfl⟩

end Sys2Proof.Laws.EncodingLength
end

