-- ==== Sys2Proof/Tests/Slice0.lean ====
section
/-! SUPPORT. The model's own tests. Expected values are the spec's: the encodings of spec/30_encoding.md, the table of
spec/40_checksum.md R101 and the vectors of spec/95_test_vectors.md. The witness theorems show that the hypotheses of the
statements in Certificates/Slice0/Obligations.lean can be met together, at the ends of their ranges. -/

namespace Sys2Proof.Tests

open Sys2Proof.Machine

/-! ## WellFormed refuses each ill-formed term -/

theorem test_wf_refuses_short_cksum : (Instr.cksum (List.replicate 14 0)).wf = false := by decide
theorem test_wf_refuses_long_verify : (Instr.verify (List.replicate 18 0)).wf = false := by decide
theorem test_wf_refuses_256_records : (Instr.encode 0 (List.replicate 256 ⟨1, 1⟩)).wf = false := by
  decide +kernel
theorem test_wf_refuses_65536_bytes (buffer : List Byte) (h : buffer.length = 65536) :
    (Instr.decode buffer).wf = false := by
  simp [Instr.wf, h]

/-! ## Decoding, one written-out command string per opcode (R71 to R75, R77, R78) -/

theorem test_decode_cksum :
    decode [0x01, 0xCA, 0x35, 2, 3, 4, 5, 6, 7, 8, 9, 10, 11, 12, 13, 14]
      = .ok (.cksum [0xCA, 0x35, 2, 3, 4, 5, 6, 7, 8, 9, 10, 11, 12, 13, 14]) := by decide
theorem test_decode_verify :
    decode [0x02, 0xCA, 0x35, 2, 3, 4, 5, 6, 7, 8, 9, 10, 11, 12, 13, 14, 15, 16]
      = .ok (.verify [0xCA, 0x35, 2, 3, 4, 5, 6, 7, 8, 9, 10, 11, 12, 13, 14, 15, 16]) := by decide
theorem test_decode_encode :
    decode [0x03, 0x02, 0x02, 0x01, 0x01, 0x02, 0x20, 0xBE, 0xEF]
      = .ok (.encode 0x02 [⟨0x01, 0x0102⟩, ⟨0x20, 0xBEEF⟩]) := by decide
theorem test_decode_decode :
    decode [0x04, 0x00, 0x02, 0xCA, 0x35] = .ok (.decode [0xCA, 0x35]) := by decide
theorem test_decode_lutRead : decode [0x05, 0xA5] = .ok (.lutRead 0xA5) := by decide
theorem test_decode_illegal :
    decode [0x00] = .error .illegal ∧ decode [0x06, 0x01] = .error .illegal ∧
      decode [0xFF, 0x01, 0x02] = .error .illegal := by decide
theorem test_decode_malformed :
    decode [] = .error .malformed ∧ decode [0x01] = .error .malformed ∧
      decode [0x03, 0x00] = .error .malformed ∧ decode [0x03, 0x00, 0x00, 0x00] = .error .malformed ∧
      decode [0x04, 0x00] = .error .malformed ∧ decode [0x05, 0x00, 0x00] = .error .malformed := by decide

/-- The opcode table's words, operand bytes zero. -/
theorem test_table_words :
    decodeTableWord 8 0x01 = some (.cksum (List.replicate 15 0)) ∧
      decodeTableWord 8 0x02 = some (.verify (List.replicate 17 0)) ∧
      decodeTableWord 8 0x03 = some (.encode 0 []) ∧
      decodeTableWord 8 0x04 = some (.decode []) ∧
      decodeTableWord 8 0x05 = some (.lutRead 0) ∧
      decodeTableWord 8 0x06 = none := by decide

/-! ## Tables and encodings of the parameters -/

/-- R101: the printed table is the one its generator makes. -/
theorem test_table_is_generated : defaultLut = generatedLut defaultPoly := by decide +kernel

/-- R22: the field encodings, and CK_FORM 3 illegal. -/
theorem test_field_encodings :
    [0, 1, 2, 3].map formOfBits = [some .a, some .b, some .c, none] ∧
      configOfFields 0xCA 0x35 defaultLut 0 0 0 0 = defaultConfig := by
  exact ⟨by decide, rfl⟩

/-- R171: every code is the one of its own row, and 0x09 is never produced. -/
theorem test_status_codes :
    allStatuses.map statusCode = [0, 1, 2, 3, 4, 5, 6, 7, 8, 0xFF] ∧
      statusOfCode 0x04 = some .checksumMismatch ∧ statusOfCode 0x09 = none := by decide

/-! ## One step from reset, against the vectors of spec/95_test_vectors.md -/

/-- The response an outcome leaves on the response port. -/
def respOf : Host.Outcome State Fault Refusal → Option (List Byte)
  | .next t => t.respPort
  | _ => none

/-- The response of one step to one command presented right after reset. -/
def answer (c : Configuration) (cmd : List Byte) : Option (List Byte) :=
  respOf (step (placeCommand cmd (State.resetWith c)))

/-- The frame G of L2.6. -/
def frameG : List Byte :=
  [0xCA, 0x35, 0x00, 0x10, 0x12, 0x34, 0xFF, 0x00, 0x00, 0xFF, 0x00, 0x00, 0xFF, 0x00, 0x00, 0x2C, 0x86]

/-- L2.1, trace 1. -/
theorem test_cksum_vector1 :
    answer defaultConfig [0x01, 0xCA, 0x35, 0x02, 0, 0, 0, 0, 0, 0, 0, 0, 0, 0, 0, 0]
      = some [0x00, 0x5A, 0x0B] := by decide +kernel
/-- L2.1, trace 4: form C. -/
theorem test_cksum_form_c :
    answer { defaultConfig with ckForm := 2 } [0x01, 0xCA, 0x35, 0x02, 0, 0, 0, 0, 0, 0, 0, 0, 0, 0, 0, 0]
      = some [0x00, 0xD0, 0x36] := by decide +kernel
/-- L2.3: no header check. -/
theorem test_verify_zero_header :
    answer defaultConfig [0x02, 0, 0, 0, 0, 0, 0, 0, 0, 0, 0, 0, 0, 0, 0, 0, 0xDA, 0x9B]
      = some [0x00, 0x01] := by decide +kernel
/-- L2.3: the checksum bytes swapped. -/
theorem test_verify_swapped :
    answer defaultConfig [0x02, 0xCA, 0x35, 0x02, 0, 0, 0, 0, 0, 0, 0, 0, 0, 0, 0, 0, 0x0B, 0x5A]
      = some [0x00, 0x00] := by decide +kernel
/-- L2.5: n = 4, STATUS. -/
theorem test_encode_four_records :
    answer defaultConfig [0x03, 0x02, 0x04, 0x01, 0x00, 0x02, 0x03, 0x00, 0x04, 0x05, 0x00, 0x06, 0x07, 0x00, 0x08]
      = some [0x00, 0xCA, 0x35, 0x02, 0x01, 0x00, 0x02, 0x03, 0x00, 0x04, 0x05, 0x00, 0x06, 0x07, 0x00, 0x08, 0x60,
        0x30] := by decide +kernel
/-- L2.5: both policies Reject, the type is checked before the slot value. -/
theorem test_encode_reserved_type_first :
    answer { defaultConfig with reservedTypePolicy := .reject, ffRecordPolicy := .reject }
      [0x03, 0x01, 0x01, 0xFF, 0x00, 0x01] = some [0x07] := by decide +kernel
/-- L2.6: unused slots before used ones. -/
theorem test_decode_slot_order :
    answer defaultConfig [0x04, 0x00, 0x11, 0xCA, 0x35, 0x02, 0xFF, 0x00, 0x00, 0x07, 0x12, 0x34, 0xFF, 0x00, 0x00,
        0x08, 0x56, 0x78, 0x2F, 0x07]
      = some [0x00, 0x02, 0x02, 0x07, 0x12, 0x34, 0x08, 0x56, 0x78] := by decide +kernel
/-- L2.6: G with offset 5 = 35 is delivered under Bypass. -/
theorem test_decode_bypass :
    answer { defaultConfig with checksumPolicy := .bypass } ([0x04, 0x00, 0x11] ++ frameG.set 5 0x35)
      = some [0x00, 0x00, 0x01, 0x10, 0x12, 0x35] := by decide +kernel
/-- L2.2: the polynomial itself. -/
theorem test_lutRead_polynomial : answer defaultConfig [0x05, 0x80] = some [0x00, 0x84, 0x08] := by
  decide +kernel
/-- L2.2: the last entry. -/
theorem test_lutRead_last : answer defaultConfig [0x05, 0xFF] = some [0x00, 0x0F, 0x78] := by
  decide +kernel
/-- L2.7: FATAL comes before ILLEGAL_COMMAND, with LUT[0] = 0x0001 and with CK_FORM = 3. -/
theorem test_fatal_first :
    answer { defaultConfig with lut := defaultLut.set 0 1 } [0x00] = some [0xFF] ∧
      answer { defaultConfig with ckForm := 3 } [] = some [0xFF] := by decide +kernel

/-! ## The text of the spec's programs (R81, R82) -/

/-- A line with a brace list, the braces as characters 123 and 125. -/
def braced (before inside : String) : List Char :=
  before.toList ++ [Char.ofNat 123] ++ inside.toList ++ [Char.ofNat 125]

/-- P4, line 4. -/
theorem test_assemble_encode :
    assemble (braced "ENCODE DATA, " "0x10:0x1234") = some [0x03, 0x00, 0x01, 0x10, 0x12, 0x34] := by
  decide +kernel
/-- R82: DECODE counts its length operand; P3, line 3: `.cmd` writes an illegal command. -/
theorem test_assemble_decode_and_cmd :
    assemble "DECODE CA 35 00".toList = some [0x04, 0x00, 0x03, 0xCA, 0x35, 0x00] ∧
      assemble ".cmd 07 00".toList = some [0x07, 0x00] ∧ assemble "LUT_READ 0x12".toList = some [0x05, 0x12] := by
  decide +kernel
/-- R82: ENCODE with an empty list, and no line that writes a short command under its own name. -/
theorem test_assemble_empty_list :
    assemble (braced "ENCODE STATUS, " "") = some [0x03, 0x02, 0x00] ∧ assemble "CKSUM CA 35".toList = none := by
  decide +kernel
/-- P3: a response with a payload and one without. -/
theorem test_render :
    renderResponse [0x00, 0x5A, 0x0B] = some "-> OK 5A 0B".toList ∧
      renderResponse [0x03] = some "-> ERR BAD_HEADER".toList := by decide +kernel

/-! ## Witnesses -/

/-- A small configuration: an empty table, so that evaluating it costs nothing. -/
def tinyConfig : Configuration := { defaultConfig with lut := [] }

/-- A READY state with both ports empty. -/
def tiny : State := ⟨tinyConfig, ⟨0, 0, 0⟩, .ready, none, none⟩

/-- `tiny` with a command presented. -/
def tinyWith (cmd : List Byte) : State := { tiny with cmdPort := some cmd }

/-- `tiny` in FATAL. -/
def tinyFatal : State := { tiny with mode := .fatal }

/-- The all-zero table is admitted; the smallest configuration whose reset is READY. -/
def zeroConfig : Configuration := { defaultConfig with lut := List.replicate 256 0 }

theorem zeroConfig_lut : LutWellFormed zeroConfig.lut := (lutAdmitted_iff _).mp (by decide +kernel)

theorem reset_inv (c : Configuration) : (State.resetWith c).Inv :=
  ⟨rfl, by simp, .inl rfl, by simp⟩

theorem sessionStart_inv (c : Configuration) : (sessionStart c).Inv :=
  ⟨reset_inv c, fun _ => ⟨rfl, rfl⟩, by simp [sessionStart]⟩

theorem witness_DecodeOfEncodeIsIdentity :
    (Instr.encode 0 (List.replicate 255 ⟨0xFF, 0⟩)).wf = true ∧ (Instr.decode []).wf = true ∧
      (Instr.cksum (List.replicate 15 0)).wf = true ∧ (Instr.verify (List.replicate 17 0)).wf = true := by
  decide +kernel
theorem witness_EncodeOfDecodeIsIdentity : decode [0x03, 0x07, 0x00] = .ok (.encode 0x07 []) := by decide
theorem witness_PackAndUnpackFollowTheLayout : unpack 0xFE 0x12 0x34 = some ⟨0xFE, 0x1234⟩ := by decide
theorem witness_StepRunsThePresentedCommand :
    (tinyWith [0x05, 0x01]).mode = .ready ∧ (tinyWith [0x05, 0x01]).cmdPort = some [0x05, 0x01] ∧
      (tinyWith [0x05, 0x01]).respPort = none ∧ decode [0x05, 0x01] = .ok (.lutRead 0x01) := by decide
theorem witness_BlockWaitsForTheHost :
    tiny.cmdPort = none ∧ ({ tinyWith [0x05] with respPort := some [0x00] } : State).respPort ≠ none := by decide
theorem witness_IllegalOpcodeIsAnswered :
    ∀ op ∈ ([0x00, 0x06, 0xFF] : List Byte), (tinyWith [op]).mode = .ready ∧ (tinyWith [op]).respPort = none ∧
      (tinyWith [op]).cmdPort = some (op :: []) ∧ op ∉ ([0x01, 0x02, 0x03, 0x04, 0x05] : List Byte) := by decide
/-- One string per clause, one byte off its length. -/
theorem witness_WrongLengthIsAnswered :
    tiny.mode = .ready ∧ tiny.respPort = none ∧
      (byteAt (1 :: List.replicate 14 0) 0 = 1 ∧ (1 :: List.replicate 14 (0 : Byte)).length ≠ 16) ∧
      (byteAt (2 :: List.replicate 18 0) 0 = 2 ∧ (2 :: List.replicate 18 (0 : Byte)).length ≠ 18) ∧
      (byteAt [5, 1, 2] 0 = 5 ∧ [5, 1, (2 : Byte)].length ≠ 2) ∧
      (byteAt [3, 0] 0 = 3 ∧ [3, (0 : Byte)].length < 3) ∧
      (byteAt [3, 0, 0, 0] 0 = 3 ∧ [3, 0, 0, (0 : Byte)].length ≠ 3 + 3 * (byteAt [3, 0, 0, 0] 2).toNat) ∧
      (byteAt [4, 0] 0 = 4 ∧ [4, (0 : Byte)].length < 3) ∧
      (byteAt [4, 1, 0] 0 = 4 ∧ [4, 1, (0 : Byte)].length
        ≠ 3 + ((byteAt [4, 1, 0] 1).toNat * 256 + (byteAt [4, 1, 0] 2).toNat)) := by decide
theorem witness_FatalAnswersEveryCommand :
    ({ tinyFatal with cmdPort := some [] } : State).mode = .fatal ∧ tinyFatal.respPort = none ∧
      step tiny = .next tiny := ⟨rfl, rfl, rfl⟩
theorem witness_LutReadAnswersTheEntry :
    (State.resetWith zeroConfig).mode = .ready ∧ configForm zeroConfig = some .a ∧ LutWellFormed zeroConfig.lut :=
  ⟨by decide +kernel, rfl, zeroConfig_lut⟩
theorem witness_CksumAnswersThePair :
    tiny.mode = .ready ∧ configForm tiny.config = some .a ∧ (List.replicate 15 (0 : Byte)).length = 15 ∧
      (tinyWith (0x01 :: List.replicate 14 0)).cmdPort = some (0x01 :: List.replicate 14 0) ∧
      (tinyWith [0x01]).respPort = none ∧ (List.replicate 14 (0 : Byte)).length ≠ 15 ∧ tinyFatal.mode = .fatal := by
  decide
theorem witness_VerifyComparesThePair :
    tiny.mode = .ready ∧ configForm tiny.config = some .a ∧ (List.replicate 17 (0 : Byte)).length = 17 ∧
      (tinyWith (0x02 :: List.replicate 18 0)).cmdPort = some (0x02 :: List.replicate 18 0) ∧
      (tinyWith [0x02]).respPort = none ∧ (List.replicate 18 (0 : Byte)).length ≠ 17 ∧ tinyFatal.mode = .fatal := by
  decide
theorem witness_ChecksumFoldsOffsetsInOrder :
    frameG.take 15 ≠ [] ∧ (frameG.take 15).length = 15 ∧
      tinyConfig.h1 = ({ tinyConfig with checksumPolicy := .bypass } : Configuration).h1 ∧
      tinyConfig.h2 = ({ tinyConfig with checksumPolicy := .bypass } : Configuration).h2 ∧
      tinyConfig.lut = ({ tinyConfig with checksumPolicy := .bypass } : Configuration).lut := by decide
theorem witness_CorrectHeaderFoldsToZero :
    defaultConfig.lut.getD 0 0 = 0 ∧ ((frameG.drop 2).take 13).length = 13 := by decide
/-- A rest of 13 bytes, the two forms that read the header, equal headers and headers that differ, both other than CA 35. -/
theorem witness_FormsDifferByFixedPairs :
    ((frameG.drop 2).take 13).length = 13 ∧ CkForm.a ≠ .c ∧ CkForm.b ≠ .c ∧ (frameG.take 15).length = 15 ∧
      (0 :: 1 :: (frameG.drop 2).take 13).length = 15 ∧ (0 :: 1 :: (frameG.drop 2).take 13).take 2 ≠ [0xCA, 0x35] ∧
      (List.replicate 15 (0 : Byte)).take 2 ≠ [0xCA, 0x35] ∧
      (0 :: 1 :: (frameG.drop 2).take 13).take 2 = (0 :: 1 :: List.replicate 13 (0 : Byte)).take 2 := by decide
theorem witness_EveryGeneratedTableIsAdmitted :
    ¬ LutWellFormed tinyConfig.lut ∧ ¬ LutWellFormed (defaultLut.set 0 1) := by
  simp only [← lutAdmitted_iff]
  decide +kernel
/-- One command for each rung of the ladder, and one that passes them all. -/
theorem witness_ErrorsFollowThePriority :
    (tinyWith [0x03, 0x00, 0x00]).cmdPort = some [0x03, 0x00, 0x00] ∧ (tinyWith []).respPort = none ∧
      (tiny.mode = .ready → configForm tiny.config = some .a) ∧
      decode ([0x04, 0x00, 0x11] ++ frameG) = .ok (.decode frameG) ∧
      decode [0x03, 0x01, 0x01, 0xFF, 0x00, 0x01] = .ok (.encode 0x01 [⟨0xFF, 0x0001⟩]) := by decide
theorem witness_EveryInterleavingAnswersAsAlone :
    (sessionStart zeroConfig).Inv ∧
      (sessionRun [.present 3 [0x00], .block, .take, .present 4 [], .block, .take] (sessionStart zeroConfig)).map
        (fun σ => σ.log) = some [⟨3, [0x00], [0x05]⟩, ⟨4, [], [0x06]⟩] ∧
      ∀ c, Event.reset c ∉ [.present 3 [0x00], .block, .take, .present 4 [], .block, .take] :=
  ⟨sessionStart_inv _, by decide +kernel, by simp⟩
theorem witness_ChecksumIsAffine :
    LutWellFormed defaultConfig.lut ∧ (frameG.take 15).length = 15 ∧ (List.replicate 15 (0xFF : Byte)).length = 15 :=
  ⟨(lutAdmitted_iff _).mp (by decide +kernel), by decide, by decide⟩
theorem witness_ChecksumDetectsOneAndTwoBitChanges :
    defaultConfig.lut = defaultLut ∧ CkForm.a ≠ .c ∧ CkForm.b ≠ .c ∧ (frameG.take 15).length = 15 ∧ 0 < 120 ∧
      119 < 120 ∧ 0 ≠ 119 ∧ 16 ≤ 119 := ⟨rfl, by decide, by decide, by decide, by decide, by decide, by decide, by decide⟩
theorem witness_FormAIsKermit : ((frameG.drop 2).take 13).length = 13 := by decide
theorem witness_ChecksumRoundTrip :
    (frameG.take 15).length = 15 ∧ tiny.mode = .ready ∧ configForm tiny.config = some .a := by decide
/-- One witness for each of the four cases, at the counts where they meet. -/
theorem witness_EncodeAnswersTheFrame :
    tiny.mode = .ready ∧ configForm tiny.config = some .a ∧ (List.replicate 255 (⟨0, 0⟩ : Record)).length < 256 ∧
      4 < (List.replicate 5 (⟨0, 0⟩ : Record)).length ∧ ¬ 4 < (List.replicate 4 (⟨0, 0⟩ : Record)).length ∧
      (({ tinyConfig with reservedTypePolicy := .reject } : Configuration).reservedTypePolicy = .reject ∧
        (0x01 : Byte) ≠ 0x00 ∧ (0x01 : Byte) ≠ 0x02) ∧
      (({ tinyConfig with ffRecordPolicy := .reject } : Configuration).ffRecordPolicy = .reject ∧
        ∃ r ∈ ([⟨0xFF, 1⟩] : List Record), r.index = 0xFF ∧ r.value ≠ 0x0000) := by decide +kernel
/-- One witness for each of the four cases: the length, the header, the checksum, the message. -/
theorem witness_DecodeAnswersTheMessage :
    tiny.mode = .ready ∧ configForm tiny.config = some .a ∧ (frameG.take 16).length < 65536 ∧
      (frameG.take 16).length ≠ 17 ∧ ¬ frameG.length ≠ 17 ∧ byteAt (frameG.set 1 0x36) 1 ≠ tinyConfig.h2 ∧
      byteAt frameG 0 = tinyConfig.h1 ∧ byteAt frameG 1 = tinyConfig.h2 ∧
      tinyConfig.checksumPolicy = .enforce ∧
      ck tinyConfig .a (frameG.take 15) ≠ (byteAt frameG 15, byteAt frameG 16) ∧
      ck defaultConfig .a (frameG.take 15) = (byteAt frameG 15, byteAt frameG 16) := by decide +kernel
theorem witness_DecodeOfEncodedFrameFiltersRecords :
    en defaultConfig .a 0x00 [⟨0x10, 0x1234⟩] = .ok frameG := by decide +kernel
/-- Both directions: G is in normal form; the frame of L2.6 with unused slots before used ones, and the one of L2.5 whose
unused slot holds a value, are not. -/
theorem witness_EncodeOfDecodedFrameRestores :
    defaultConfig.checksumPolicy = .enforce ∧ defaultConfig.reservedTypePolicy = .accept ∧
      defaultConfig.ffRecordPolicy = .verbatim ∧ de defaultConfig .a frameG = .ok ⟨0x00, [⟨0x10, 0x1234⟩]⟩ ∧
      de defaultConfig .a [0xCA, 0x35, 0x02, 0xFF, 0x00, 0x00, 0x07, 0x12, 0x34, 0xFF, 0x00, 0x00, 0x08, 0x56, 0x78,
        0x2F, 0x07] = .ok ⟨0x02, [⟨0x07, 0x1234⟩, ⟨0x08, 0x5678⟩]⟩ ∧
      de defaultConfig .a [0xCA, 0x35, 0x00, 0xFF, 0xAB, 0xCD, 0xFF, 0x00, 0x00, 0xFF, 0x00, 0x00, 0xFF, 0x00, 0x00,
        0xC3, 0xFC] = .ok ⟨0x00, []⟩ :=
  ⟨rfl, rfl, rfl, by decide +kernel, by decide +kernel, by decide +kernel⟩
theorem witness_DecodeDetectsSingleBitFlips :
    defaultConfig.lut = defaultLut ∧ defaultConfig.checksumPolicy = .enforce ∧
      de defaultConfig .a frameG = .ok ⟨0x00, [⟨0x10, 0x1234⟩]⟩ ∧ 135 < 136 ∧ 16 ≤ 16 ∧ 15 < 16 :=
  ⟨rfl, rfl, by decide +kernel, by decide, by decide, by decide⟩
theorem witness_BypassIgnoresChecksumBytes :
    ({ tiny with config := { tinyConfig with checksumPolicy := .bypass } } : State).mode = .ready ∧
      configForm { tinyConfig with checksumPolicy := .bypass } = some .a ∧ (frameG.take 15).length = 15 := by decide
theorem witness_WindowOneByteEarlyIsBadHeader :
    defaultConfig.h1 ≠ defaultConfig.h2 ∧ (frameG.drop 2).length = 15 := by decide
theorem witness_CommandsChangeOnlyTheResponse :
    exec (.lutRead 0) tiny = .next { tiny with respPort := some [0, 0, 0] } := rfl
/-- An error that computes nothing, and a checksum that does not match. -/
theorem witness_ErrorsHaveNoOtherEffect :
    (tinyWith []).respPort = none ∧
      step (tinyWith []) = .next { tiny with respPort := some [0x06] } ∧
      respOf (step (tinyWith ([0x04, 0x00, 0x11] ++ frameG))) = some [0x04] := ⟨rfl, rfl, by decide⟩
theorem witness_PayloadLengthsFollowTheCommand :
    (Instr.lutRead 0).wf = true ∧ exec (.lutRead 0) tiny = .next { tiny with respPort := some [0, 0, 0] } ∧
      respOf (exec (.decode frameG) { tiny with config := { tinyConfig with checksumPolicy := .bypass } })
        = some [0x00, 0x00, 0x01, 0x10, 0x12, 0x34] := ⟨rfl, rfl, by decide⟩
theorem witness_OnlyResetChangesTheConfiguration :
    step tiny = .next tiny ∧ (sessionNext (.present 7 [0x05, 0x00]) ⟨tiny, none, []⟩).isSome = true ∧
      (∀ c, Event.present 7 [0x05, 0x00] ≠ .reset c) := ⟨rfl, rfl, by intro c; simp⟩
theorem witness_StepKeepsTheInvariant : State.reset.Inv ∧ step State.reset = .next State.reset :=
  ⟨reset_inv _, rfl⟩
theorem witness_SoundStatesNeverStop : State.reset.Inv := reset_inv _
theorem witness_EveryCommandIsAnsweredInOneStep :
    State.reset.Inv ∧ State.reset.cmdPort = none ∧ State.reset.respPort = none := ⟨reset_inv _, rfl, rfl⟩
theorem witness_RunsAnswerEachCommandAsAlone :
    State.reset.Inv ∧ State.reset.cmdPort = none ∧ State.reset.respPort = none ∧
      ([[0x05, 0x01], [0x00]] : List (List Byte)).length = 2 := ⟨reset_inv _, rfl, rfl, rfl⟩
/-- Each event has a sound session in which it happens: presenting and resetting at the start, then the block's step and
the taking of its answer. -/
theorem witness_EveryEventKeepsTheSessionSound :
    (sessionStart zeroConfig).Inv ∧
      (sessionRun [.present 3 [0x00], .block, .take, .reset defaultConfig] (sessionStart zeroConfig)).map
        (fun σ => σ.log) = some [⟨3, [0x00], [0x05]⟩] :=
  ⟨sessionStart_inv _, by decide +kernel⟩
/-- The longest buffer; a line of a command; and lines of `.cmd` that write an illegal and a malformed command. -/
theorem witness_AssemblerExpandsPseudoCommands :
    (List.replicate 65535 (0 : Byte)).length < 65536 ∧
      assemble "LUT_READ 0x12".toList = some [0x05, 0x12] ∧
      (assemble ".cmd 07 00".toList = some [0x07, 0x00] ∧ decode [0x07, 0x00] = .error .illegal) ∧
      (assemble ".cmd".toList = some [] ∧ decode [] = .error .malformed) :=
  ⟨by rw [List.length_replicate]; decide, by decide +kernel, by decide +kernel, by decide +kernel⟩

/-! ## Programs' properties in one transaction (P3) -/

/-- P3: after an error the next command is answered as in a fresh run. -/
theorem test_error_leaves_no_trace :
    (transactAll [[0x07, 0x00], [0x05, 0x01]] (State.resetWith defaultConfig)).map Prod.fst
      = some [([0x07, 0x00], [0x05]), ([0x05, 0x01], [0x00, 0x11, 0x89])] := by decide +kernel

end Sys2Proof.Tests
end

section
/-! SUPPORT. Which byte strings the decoder accepts, and that it reads an encoding back (spec/30_encoding.md R71 to R79). -/

namespace Sys2Proof

open Machine

/-- The records read from `n` groups fit ENCODE's one-byte count. -/
theorem wf_encode_recordsOf {type n : Byte} {groups : List Byte} (h : groups.length = 3 * n.toNat) :
    (Instr.encode type (recordsOf groups)).wf = true := by
  have hcount : (recordsOf groups).length = n.toNat := (flatMap_pack_recordsOf n.toNat groups h).2
  simp only [Instr.wf, hcount, decide_eq_true_eq]
  omega

/-- A buffer as long as a two-byte length operand says fits DECODE's layout. -/
theorem wf_decode_of_length {hi lo : Byte} {buffer : List Byte} (h : buffer.length = (joinBytes hi lo).toNat) :
    (Instr.decode buffer).wf = true := by
  simp only [Instr.wf, h, decide_eq_true_eq]
  omega

/-- A string that decodes to a well-formed command under a length condition `fits`, and is malformed without it, is
accepted exactly under any equivalent condition. -/
theorem accepted_iff_fits {cmd : List Byte} {i : Instr} {fits tabled : Prop} [Decidable fits] [Decidable tabled]
    (hdecode : decode cmd = if fits then .ok i else .error .malformed) (hiff : tabled ↔ fits)
    (hwf : fits → i.wf = true) :
    if tabled then ∃ i, decode cmd = .ok i ∧ i.wf = true else decode cmd = .error .malformed := by
  split_ifs with h
  · have hfits := hiff.mp h
    exact ⟨i, by rw [hdecode, if_pos hfits], hwf hfits⟩
  · rw [hdecode, if_neg (mt hiff.mpr h)]

/-- The bytes of a well-formed command decode to it (R71 to R75). -/
theorem decode_encode_of_wf {i : Instr} (h : i.wf = true) : decode (encode i) = .ok i := by
  cases i with
  | cksum body => exact (decode_cksum body).trans (if_pos (eq_of_beq h))
  | verify frame => exact (decode_verify frame).trans (if_pos (eq_of_beq h))
  | encode type records =>
    have hcount : records.length < 256 := of_decide_eq_true h
    have hlen : (records.flatMap pack).length = 3 * (BitVec.ofNat 8 records.length).toNat := by
      rw [length_flatMap_pack, BitVec.toNat_ofNat, Nat.mod_eq_of_lt hcount]
    calc decode (encode (.encode type records))
        = .ok (.encode type (recordsOf (records.flatMap pack))) :=
          (decode_encode type _ _).trans (if_pos hlen)
      _ = .ok (.encode type records) := by rw [recordsOf_flatMap_pack]
  | decode buffer =>
    have hlen : buffer.length < 65536 := of_decide_eq_true h
    refine (decode_decode _ _ buffer).trans (if_pos ?_)
    rw [joinBytes_split, BitVec.toNat_ofNat, Nat.mod_eq_of_lt hlen]
  | lutRead index => exact decode_lutRead index

/-- Settles O3: the opcode's decoder lemma gives the one length that fits, and each accepted string's operands are in
range. -/
theorem decodeAcceptsExactlyTheTabledLengths : Obligations.DecodeAcceptsExactlyTheTabledLengths := by
  refine ⟨decode_nil, fun op operands => ?_⟩
  rcases opcode_cases op with rfl | rfl | rfl | rfl | rfl | ⟨hother, hnone⟩
  · exact accepted_iff_fits (decode_cksum operands) (by simp [eq_comm]) beq_of_eq
  · exact accepted_iff_fits (decode_verify operands) (by simp [eq_comm]) beq_of_eq
  · match operands with
    | [] | [_] => exact decode_encode_short (by simp)
    | type :: n :: groups =>
      exact accepted_iff_fits (decode_encode type n groups) (by simp [byteAt]; omega) wf_encode_recordsOf
  · match operands with
    | [] | [_] => exact decode_decode_short (by simp)
    | hi :: lo :: buffer =>
      exact accepted_iff_fits (decode_decode hi lo buffer) (by simp [byteAt, joinBytes_toNat]; omega)
        wf_decode_of_length
  · match operands with
    | [index] => exact ⟨_, decode_lutRead index, rfl⟩
    | [] => exact decode_lutRead_wrong (by simp)
    | index :: next :: rest => simpa using decode_lutRead_wrong (rest := index :: next :: rest) (by simp)
  · simpa [hother] using decode_illegal operands hnone

end Sys2Proof
end

section
/-! SUPPORT. What whole lines of text assemble to (spec/30_encoding.md R81, R82). -/

namespace Sys2Proof.Machine

/-- The high byte of a length operand counts 256s. -/
theorem highByte_ofNat (n : Nat) : highByte (BitVec.ofNat 16 n) = BitVec.ofNat 8 (n / 256) := by
  apply BitVec.eq_of_toNat_eq
  simp [highByte, Nat.shiftRight_eq_div_pow]
  omega

/-- The low byte of a length operand is the rest. -/
theorem lowByte_ofNat (n : Nat) : lowByte (BitVec.ofNat 16 n) = BitVec.ofNat 8 (n % 256) := by
  apply BitVec.eq_of_toNat_eq
  simp [lowByte]

/-! The name of each command's line (R81). -/

@[simp] theorem commandName_cksum (body : List Byte) : commandName (.cksum body) = "CKSUM".toList := rfl

@[simp] theorem commandName_verify (frame : List Byte) : commandName (.verify frame) = "VERIFY".toList := rfl

@[simp] theorem commandName_encode (type : Byte) (records : List Record) :
    commandName (.encode type records) = "ENCODE".toList := rfl

@[simp] theorem commandName_decode (buffer : List Byte) : commandName (.decode buffer) = "DECODE".toList := rfl

@[simp] theorem commandName_lutRead (index : Byte) : commandName (.lutRead index) = "LUT_READ".toList := rfl

/-- A word of a line: not empty, and no character of it is a space or a mark. -/
def PlainWord (word : List Char) : Prop := word ≠ [] ∧ ∀ ch ∈ word, markOf ch = none ∧ ch ≠ ' '

theorem flushWord_plain {word : List Char} (h : PlainWord word) (rest : List Token) :
    flushWord word rest = .word word :: rest := by
  simp [flushWord, h.1]

/-- Characters that are neither spaces nor marks join the word being read. -/
theorem tokenize_append_plain {name : List Char} (plain : ∀ ch ∈ name, markOf ch = none ∧ ch ≠ ' ') (rest : List Char) :
    ∀ word : List Char, tokenize word (name ++ rest) = tokenize (word ++ name) rest := by
  induction name with
  | nil => intro word; simp
  | cons ch name ih =>
    intro word
    obtain ⟨hmark, hspace⟩ := plain ch (by simp)
    rw [List.cons_append, tokenize_plain hmark hspace, ih fun c hc => plain c (by simp [hc])]
    simp

/-- A plain word before a space is one token. -/
theorem tokenize_plain_space {word : List Char} (h : PlainWord word) (rest : List Char) :
    tokenize [] (word ++ ' ' :: rest) = .word word :: tokenize [] rest := by
  rw [tokenize_append_plain h.2, List.nil_append]
  exact flushWord_plain h _

/-- A plain word before a comma is one token, and the comma the next. -/
theorem tokenize_plain_comma {word : List Char} (h : PlainWord word) (rest : List Char) :
    tokenize [] (word ++ ',' :: rest) = .word word :: .comma :: tokenize [] rest := by
  rw [tokenize_append_plain h.2, List.nil_append]
  exact flushWord_plain h _

theorem plainWord_data : PlainWord "DATA".toList := by simp [PlainWord, markOf]

theorem plainWord_status : PlainWord "STATUS".toList := by simp [PlainWord, markOf]

theorem plainWord_cmd : PlainWord ".cmd".toList := by simp [PlainWord, markOf]

/-- Every command's name is one word. -/
theorem plainWord_commandName (i : Instr) : PlainWord (commandName i) := by
  cases i with
  | cksum | verify | encode | decode | lutRead => simp [PlainWord, markOf]

/-- A byte written `0xNN` is one word. -/
theorem plainWord_prefixed (b : Byte) : PlainWord ('0' :: 'x' :: hexOfByte b) := by
  have hhigh := digitChar_plain (b.toNat / 16) (by omega)
  have hlow := digitChar_plain (b.toNat % 16) (by omega)
  have hzero : markOf '0' = none := by decide
  have hx : markOf 'x' = none := by decide
  simp [PlainWord, hexOfByte, hhigh, hlow, hzero, hx]

theorem typeOperand_data : typeOperand "DATA".toList = some 0x00 := by simp [typeOperand, typeData]

theorem typeOperand_status : typeOperand "STATUS".toList = some 0x02 := by simp [typeOperand, typeStatus]

/-- A type operand `0xNN` is the byte written. -/
theorem typeOperand_prefixed (b : Byte) : typeOperand ('0' :: 'x' :: hexOfByte b) = some b := by
  simp [typeOperand, prefixedByte]

/-- A line of a name and hex bytes assembles as that name with one word for each byte. -/
theorem assemble_name_hexWords {name : List Char} (h : PlainWord name) (bytes : List Byte) :
    assemble (name ++ bytes.flatMap fun b => ' ' :: hexOfByte b) =
      assembleTokens (.word name :: bytes.map fun b => .word (hexOfByte b)) := by
  rw [assemble, tokenize_name_hexWords name bytes h.2, List.nil_append, flushWord_plain h]

/-- DECODE and hex bytes give the opcode, their number big-endian, and the bytes (R82). -/
theorem assemble_decode_hexWords {buf : List Byte} (h : buf.length < 65536) :
    assemble ("DECODE".toList ++ buf.flatMap fun b => ' ' :: hexOfByte b) =
      some (0x04 :: BitVec.ofNat 8 (buf.length / 256) :: BitVec.ofNat 8 (buf.length % 256) :: buf) := by
  have hwf : (Instr.decode buf).wf = true := decide_eq_true h
  have hname : PlainWord "DECODE".toList := plainWord_commandName (.decode buf)
  rw [assemble_name_hexWords hname, assembleTokens_decode, hexBytes_map_hexOfByte,
    Option.bind_some, commandBytes_eq_some.mpr ⟨hwf, rfl⟩, encode, highByte_ofNat, lowByte_ofNat]
  rfl

/-- `.cmd` gives any hex bytes as written (R82). -/
theorem assemble_cmd_hexWords (bytes : List Byte) :
    assemble (".cmd".toList ++ bytes.flatMap fun b => ' ' :: hexOfByte b) = some bytes := by
  rw [assemble_name_hexWords plainWord_cmd, assembleTokens_cmd, hexBytes_map_hexOfByte]

/-- The tokens of an ENCODE line with an empty list. -/
theorem tokenize_encode_empty {type : List Char} (h : PlainWord type) :
    tokenize [] ("ENCODE ".toList ++ type ++ [',', ' ', Char.ofNat 123, Char.ofNat 125]) =
      [.word "ENCODE".toList, .word type, .comma, .openBrace, .closeBrace] := by
  have hline : "ENCODE ".toList ++ type ++ [',', ' ', Char.ofNat 123, Char.ofNat 125] =
      "ENCODE".toList ++ ' ' :: (type ++ ',' :: [' ', Char.ofNat 123, Char.ofNat 125]) := by simp
  have hbraces : tokenize [] [' ', Char.ofNat 123, Char.ofNat 125] = [.openBrace, .closeBrace] := by decide
  have hname : PlainWord "ENCODE".toList := plainWord_commandName (.encode 0 [])
  rw [hline, tokenize_plain_space hname, tokenize_plain_comma h, hbraces]

/-- ENCODE with an empty list gives the opcode, the type and the count 0 (R82). -/
theorem assemble_encode_empty {type : List Char} {t : Byte} (h : PlainWord type) (ht : typeOperand type = some t) :
    assemble ("ENCODE ".toList ++ type ++ [',', ' ', Char.ofNat 123, Char.ofNat 125]) = some [0x03, t, 0x00] := by
  rw [assemble, tokenize_encode_empty h, assembleTokens_encode_empty, ht]
  rfl

/-- A command's line begins with the name its opcode byte has (R70, R81). -/
theorem commandName_opcode_mem (i : Instr) :
    (commandName i, byteAt (encode i) 0) ∈ [("CKSUM".toList, (0x01 : Byte)), ("VERIFY".toList, 0x02),
      ("ENCODE".toList, 0x03), ("DECODE".toList, 0x04), ("LUT_READ".toList, 0x05)] := by
  cases i with
  | cksum | verify | encode | decode | lutRead => simp [encode, byteAt, opcodeByte]

/-- A line that assembles begins with `.cmd`, or with a command's name and then decodes to a command of that opcode
(R82). -/
theorem assemble_cases {line : List Char} {bytes : List Byte} (h : assemble line = some bytes) :
    (∃ operands, tokenize [] line = .word ".cmd".toList :: operands) ∨
      ∃ (i : Instr) (operands : List Token), tokenize [] line = .word (commandName i) :: operands ∧
        encode i = bytes ∧ decode bytes = .ok i := by
  rcases assembleTokens_cases h with ⟨operands, hline, -⟩ | ⟨i, operands, hline, hwf, rfl⟩
  · exact .inl ⟨operands, hline⟩
  · exact .inr ⟨i, operands, hline, rfl, decode_encode_of_wf hwf⟩

/-- Settles O48: the expansions are the lines' lemmas; a line without `.cmd` encodes a well-formed command, which
decodes back. -/
theorem assemblerExpandsPseudoCommands : Obligations.AssemblerExpandsPseudoCommands := by
  refine ⟨fun _ => assemble_decode_hexWords, assemble_encode_empty plainWord_data typeOperand_data,
    assemble_encode_empty plainWord_status typeOperand_status,
    fun type => assemble_encode_empty (plainWord_prefixed type) (typeOperand_prefixed type),
    assemble_cmd_hexWords, fun line bytes h => ?_, fun line bytes rejection h hreject => ?_⟩
  · rcases assemble_cases h with ⟨operands, hline⟩ | ⟨i, operands, hline, rfl, hdecode⟩
    · exact ⟨_, operands, hline, .inl rfl⟩
    · exact ⟨_, operands, hline, .inr ⟨commandName_opcode_mem i, i, hdecode⟩⟩
  · rcases assemble_cases h with hcmd | ⟨i, -, -, -, hdecode⟩
    · exact hcmd
    · cases hdecode.symm.trans hreject

end Sys2Proof.Machine
end

section
/-! SUPPORT. Tables that are linear in their index, and the bit steps of the two table generators
(spec/40_checksum.md R101, R102). -/

namespace Sys2Proof.Machine

/-- A generator's step is linear over GF(2): a linear shift, then the polynomial added under a linear bit. -/
theorem shift_reduce_xor {shift : Half → Half} (hshift : ∀ a b, shift (a ^^^ b) = shift a ^^^ shift b)
    (poly : Half) (k : Nat) (a b : Half) :
    (if (a ^^^ b).getLsbD k then shift (a ^^^ b) ^^^ poly else shift (a ^^^ b)) =
      (if a.getLsbD k then shift a ^^^ poly else shift a) ^^^
        (if b.getLsbD k then shift b ^^^ poly else shift b) := by
  rw [BitVec.getLsbD_xor, hshift]
  cases a.getLsbD k <;> cases b.getLsbD k
  case false.false => rfl
  case false.true => exact BitVec.xor_assoc ..
  case true.false =>
    show (shift a ^^^ shift b) ^^^ poly = (shift a ^^^ poly) ^^^ shift b
    ac_rfl
  case true.true =>
    calc shift a ^^^ shift b = (shift a ^^^ shift b) ^^^ (poly ^^^ poly) := by simp
      _ = (shift a ^^^ poly) ^^^ (shift b ^^^ poly) := by ac_rfl

theorem lutGenStep_xor (poly a b : Half) :
    lutGenStep poly (a ^^^ b) = lutGenStep poly a ^^^ lutGenStep poly b :=
  shift_reduce_xor (shift := (· >>> 1)) (BitVec.ushiftRight_xor_distrib · · 1) poly 0 a b

theorem msbGenStep_xor (poly a b : Half) :
    msbGenStep poly (a ^^^ b) = msbGenStep poly a ^^^ msbGenStep poly b :=
  shift_reduce_xor (shift := (· <<< 1)) (BitVec.shiftLeft_xor_distrib · · 1) poly 15 a b

/-- Iterating a linear step is linear. -/
theorem iterate_xor {f : Half → Half} (hf : ∀ a b, f (a ^^^ b) = f a ^^^ f b) (n : Nat) (a b : Half) :
    f^[n] (a ^^^ b) = f^[n] a ^^^ f^[n] b := by
  induction n with
  | zero => rfl
  | succ n ih => simp only [Function.iterate_succ_apply', ih, hf]

/-- A generated entry is eight steps from its index. -/
theorem lutGenEntry_eq_iterate (poly : Half) (i : Nat) :
    lutGenEntry poly i = (lutGenStep poly)^[8] (BitVec.ofNat 16 i) := rfl

theorem msbLut_eq_map_iterate (poly : Half) :
    msbLut poly = (List.range lutEntries).map fun i => (msbGenStep poly)^[8] (BitVec.ofNat 16 i <<< 8) := rfl

/-- A table of 256 entries that are linear in the index has the property of R102. -/
theorem lutWellFormed_map_range {f : Nat → Half} (hf : ∀ i j, f (i ^^^ j) = f i ^^^ f j) :
    LutWellFormed ((List.range lutEntries).map f) := by
  have hget : ∀ i < lutEntries, ((List.range lutEntries).map f).getD i 0 = f i := by
    intro i hi
    simp [List.getD_eq_getElem?_getD, hi]
  have hzero : f 0 = 0 := by simpa using hf 0 0
  refine ⟨by simp, by rw [hget 0 (by decide), hzero], fun i j hi hj => ?_⟩
  rw [hget i hi, hget j hj, hget _ (Nat.xor_lt_two_pow (n := 8) hi hj), hf]

theorem lutWellFormed_generatedLut (poly : Half) : LutWellFormed (generatedLut poly) :=
  lutWellFormed_map_range fun i j => by
    simp only [lutGenEntry_eq_iterate, BitVec.ofNat_xor, iterate_xor (lutGenStep_xor poly)]

theorem lutWellFormed_msbLut (poly : Half) : LutWellFormed (msbLut poly) := by
  rw [msbLut_eq_map_iterate]
  exact lutWellFormed_map_range fun i j => by
    simp only [BitVec.ofNat_xor, BitVec.shiftLeft_xor_distrib, iterate_xor (msbGenStep_xor poly)]

/-- The printed table is the generated one, evaluated entry by entry (R101). -/
theorem defaultLut_eq_generatedLut : defaultLut = generatedLut defaultPoly := by decide +kernel

theorem lutWellFormed_defaultLut : LutWellFormed defaultLut :=
  defaultLut_eq_generatedLut ▸ lutWellFormed_generatedLut defaultPoly

/-- A table without the property of R102 puts the block in FATAL at reset (R203). -/
theorem modeAtReset_fatal {c : Configuration} (h : ¬ LutWellFormed c.lut) : modeAtReset c = .fatal := by
  cases hm : modeAtReset c with
  | fatal => rfl
  | ready => exact absurd ((modeAtReset_ready c).mp hm).1 h

/-- Settles O41: both generators' steps are linear, so their tables are, and the printed table is a generated one. -/
theorem everyGeneratedTableIsAdmitted : Obligations.EveryGeneratedTableIsAdmitted :=
  ⟨fun poly => ⟨lutWellFormed_generatedLut poly, lutWellFormed_msbLut poly⟩, lutWellFormed_defaultLut,
    defaultLut_eq_generatedLut, fun _ => modeAtReset_fatal⟩

end Sys2Proof.Machine
end

section
/-! SUPPORT. Seed, fold and CK as the rules write them, and what CKSUM and VERIFY answer
(spec/40_checksum.md R103 to R112). -/

namespace Sys2Proof.Machine

/-! Seed and fold. -/

/-- Settles O16: the three rows of the seed's definition. -/
theorem seedFollowsTheForm : Obligations.SeedFollowsTheForm := fun _ => ⟨rfl, rfl, rfl⟩

/-- Settles O17: the bytes of an entry are its low and high eight bits. -/
theorem foldUsesTheOldAccumulator : Obligations.FoldUsesTheOldAccumulator := by
  intro c c1 c0 b pos entry
  rw [← lowByte_eq, ← highByte_eq]
  rfl

/-- Folding the byte that `c1` holds reads entry 0 and shifts the accumulator (R108). -/
theorem fold_c1_of_entry_zero {c : Configuration} (hzero : c.lut.getD 0 0 = 0) (c1 c0 : Byte) (pos : Nat) :
    fold c ⟨c1, c0, pos⟩ c1 = ⟨c0, 0x00, pos + 1⟩ := by
  have hentry : lutRead c 0#8 = 0 := hzero
  simp [fold, hentry, lowByte, highByte]

/-- A correct header folds form A's seed to zero (R108). -/
theorem ckState_correct_header {c : Configuration} (hzero : c.lut.getD 0 0 = 0) (rest : List Byte) :
    ckState c .a (c.h1 :: c.h2 :: rest) = rest.foldl (fold c) ⟨0x00, 0x00, 2⟩ := by
  change rest.foldl (fold c) (fold c (fold c ⟨c.h1, c.h2, 0⟩ c.h1) c.h2) = _
  rw [fold_c1_of_entry_zero hzero, fold_c1_of_entry_zero hzero]

/-- Settles O19: each header byte meets itself in the accumulator, and entry 0 is zero. -/
theorem correctHeaderFoldsToZero : Obligations.CorrectHeaderFoldsToZero := by
  intro c rest hzero _
  have hfirst : fold c (seed c .a) c.h1 = ⟨c.h2, 0x00, 1⟩ := fold_c1_of_entry_zero hzero c.h1 c.h2 0
  refine ⟨hfirst, ?_, ?_⟩
  · rw [hfirst, fold_c1_of_entry_zero hzero]
  · rw [ck, ckState_correct_header hzero]

/-! CK as a loop over offsets, and what it reads. -/

/-- Folding a string from offset `m` on is folding its offsets from `m` on in increasing order. -/
theorem foldl_drop_eq_foldl_range' {α : Type} (f : α → Byte → α) (acc : α) (b : List Byte) (m : Nat) :
    (b.drop m).foldl f acc = (List.range' m (b.length - m)).foldl (fun acc k => f acc (byteAt b k)) acc := by
  have hoffsets : b.drop m = (List.range' m (b.length - m)).map (byteAt b) := by
    apply List.ext_getElem
    · simp
    · intro i hi _
      have hlt : m + i < b.length := by simp at hi; omega
      simp [byteAt, hlt]
  rw [hoffsets, List.foldl_map]

/-- CK reads H1, H2 and the table of the configuration and nothing else of it (R106). -/
theorem ckState_congr {c c' : Configuration} (h1 : c.h1 = c'.h1) (h2 : c.h2 = c'.h2) (hlut : c.lut = c'.lut)
    (form : CkForm) (b : List Byte) : ckState c form b = ckState c' form b := by
  have hfold : fold c = fold c' := by
    funext acc x
    simp only [fold, lutRead, hlut]
  have hseed : seed c form = seed c' form := by
    cases form with
    | a | b | c => simp only [seed, h1, h2]
  rw [ckState, ckState, hfold, hseed]

theorem ck_congr {c c' : Configuration} (h1 : c.h1 = c'.h1) (h2 : c.h2 = c'.h2) (hlut : c.lut = c'.lut)
    (form : CkForm) (b : List Byte) : ck c form b = ck c' form b := by
  rw [ck, ck, ckState_congr h1 h2 hlut]

/-- The offset a form's fold starts at (R103). -/
theorem seed_pos (c : Configuration) (form : CkForm) : (seed c form).pos = if form = .c then 2 else 0 := by
  cases form with
  | a | b | c => rfl

/-- Settles O18: the dropped string is the string's offsets in order. -/
theorem checksumFoldsOffsetsInOrder : Obligations.ChecksumFoldsOffsetsInOrder := by
  refine ⟨fun c form b hb => ⟨?_, ckState_pos c form hb⟩, fun c c' form b h1 h2 hlut => ck_congr h1 h2 hlut form b⟩
  rw [ck, ckState, foldl_drop_eq_foldl_range', hb, seed_pos]

/-- Form C never reads offsets 0 and 1. -/
theorem ckState_form_c_header (c : Configuration) (x y x' y' : Byte) (rest : List Byte) :
    ckState c .c (x :: y :: rest) = ckState c .c (x' :: y' :: rest) := rfl

theorem ck_form_c_header (c : Configuration) (x y x' y' : Byte) (rest : List Byte) :
    ck c .c (x :: y :: rest) = ck c .c (x' :: y' :: rest) := by
  rw [ck, ck, ckState_form_c_header]

/-! The commands CKSUM and VERIFY. -/

theorem runCommand_malformed {cmd : List Byte} {s : State} (hm : s.mode = .ready)
    (hd : decode cmd = .error .malformed) : runCommand cmd s = .next (raise .malformedCommand s) := by
  simp only [runCommand, hm, hd]

/-- A presented string that is malformed is answered by its status alone (R174). -/
theorem step_malformed {s : State} {cmd : List Byte} (hm : s.mode = .ready) (hr : s.respPort = none)
    (hc : s.cmdPort = some cmd) (hd : decode cmd = .error .malformed) :
    step s = .next { s with cmdPort := none, respPort := some [0x06] } := by
  rw [step_accepts hc hr]
  exact runCommand_malformed (s := accept s) hm hd

/-- Settles O14: CKSUM's answer is the pair of `ck`; form C's fold starts at offset 2; the two vectors are evaluated. -/
theorem cksumAnswersThePair : Obligations.CksumAnswersThePair := by
  refine ⟨fun s form body hm hf hl => ⟨_, exec_cksum hm hf hl⟩, ck_form_c_header,
    by decide +kernel, by decide +kernel, fun s body hm hr hc hl => ?_, fun s body hm => exec_fatal _ hm⟩
  exact step_malformed hm hr hc ((decode_cksum body).trans (if_neg hl))

/-- VERIFY's result byte compares the pair with offsets 15 and 16 (R107). -/
theorem verdictByte_vf (c : Configuration) (form : CkForm) (frame : List Byte) :
    verdictByte (vf c form frame) =
      if (ck c form (frame.take 15)).1 = byteAt frame 15 ∧ (ck c form (frame.take 15)).2 = byteAt frame 16
      then 0x01 else 0x00 := by
  simp only [verdictByte, vf, beq_iff_eq, Prod.ext_iff, ckInputLen]

theorem vf_checksumPolicy (c : Configuration) (form : CkForm) (p : ChecksumPolicy) (frame : List Byte) :
    vf { c with checksumPolicy := p } form frame = vf c form frame := by
  rw [vf, vf, ck_congr (c := { c with checksumPolicy := p }) (c' := c) rfl rfl rfl]

theorem vf_form_c_header (c : Configuration) (x y x' y' : Byte) (rest : List Byte) :
    vf c .c (x :: y :: rest) = vf c .c (x' :: y' :: rest) :=
  congrArg (· == (byteAt rest 13, byteAt rest 14)) (ck_form_c_header c x y x' y' (rest.take 13))

/-- Settles O15: VERIFY's answer is the comparison of `vf`, which reads what `ck` reads; the two frames are evaluated. -/
theorem verifyComparesThePair : Obligations.VerifyComparesThePair := by
  refine ⟨fun s form frame hm hf hl => ⟨ckState s.config form (frame.take ckInputLen), ?_⟩, vf_checksumPolicy,
    vf_form_c_header, by decide +kernel, by decide +kernel, fun s frame hm hr hc hl => ?_,
    fun s frame hm => exec_fatal _ hm⟩
  · rw [← verdictByte_vf]
    exact exec_verify hm hf hl
  · exact step_malformed hm hr hc ((decode_verify frame).trans (if_neg hl))

end Sys2Proof.Machine
end

section
/-! SUPPORT. The accumulator as the 16-bit register of a bit-serial CRC. Under the default table a fold advances the
register by eight of the generator's steps (spec/40_checksum.md R101, R104), so CK is linear in its input. -/

namespace Sys2Proof.Machine

/-! Advancing the register by single bits. -/

/-- The register after `n` zero bits: `n` steps of the default table's generator. -/
def crcAdvance (n : Nat) (r : Half) : Half := (lutGenStep defaultPoly)^[n] r

theorem crcAdvance_succ (n : Nat) (r : Half) :
    crcAdvance (n + 1) r = lutGenStep defaultPoly (crcAdvance n r) :=
  Function.iterate_succ_apply' ..

theorem crcAdvance_add (m n : Nat) (r : Half) : crcAdvance (m + n) r = crcAdvance m (crcAdvance n r) :=
  Function.iterate_add_apply ..

theorem crcAdvance_xor (n : Nat) (a b : Half) : crcAdvance n (a ^^^ b) = crcAdvance n a ^^^ crcAdvance n b :=
  iterate_xor (lutGenStep_xor defaultPoly) n a b

@[simp] theorem crcAdvance_of_zero (n : Nat) : crcAdvance n 0#16 = 0#16 := Function.iterate_fixed (by decide) n

/-- Bit 15 of the polynomial is set, so bit 15 of a step tells whether the polynomial was added. -/
theorem getLsbD_15_lutGenStep (r : Half) : (lutGenStep defaultPoly r).getLsbD 15 = r.getLsbD 0 := by
  unfold lutGenStep
  cases r.getLsbD 0 <;> simp [defaultPoly]

/-- A value is its lowest bit and the rest. -/
theorem eq_of_bit_zero_of_shift {r t : Half} (hbit : r.getLsbD 0 = t.getLsbD 0) (hshift : r >>> 1 = t >>> 1) :
    r = t := by
  apply BitVec.eq_of_getLsbD_eq
  rintro (_ | i) _
  · exact hbit
  · simpa [Nat.add_comm] using congrArg (·.getLsbD i) hshift

theorem lutGenStep_injective : Function.Injective (lutGenStep defaultPoly) := by
  intro r t h
  have hbit : r.getLsbD 0 = t.getLsbD 0 := by rw [← getLsbD_15_lutGenStep, h, getLsbD_15_lutGenStep]
  refine eq_of_bit_zero_of_shift hbit ?_
  unfold lutGenStep at h
  rw [hbit] at h
  split at h
  · exact (BitVec.xor_left_inj _).mp h
  · exact h

theorem crcAdvance_injective (n : Nat) : Function.Injective (crcAdvance n) := lutGenStep_injective.iterate n

/-- While the low bits are zero no polynomial is added. -/
theorem crcAdvance_of_low_bits_zero (n : Nat) :
    ∀ r : Half, (∀ i < n, r.getLsbD i = false) → crcAdvance n r = r >>> n := by
  induction n with
  | zero => intro r _; simp [crcAdvance]
  | succ n ih =>
    intro r hlow
    have hstep : crcAdvance 1 r = r >>> 1 := if_neg (Bool.eq_false_iff.mp (hlow 0 n.succ_pos))
    have hrest : ∀ i < n, (r >>> 1).getLsbD i = false := fun i hi => by simpa using hlow (1 + i) (by omega)
    rw [crcAdvance_add, hstep, ih _ hrest, ← BitVec.shiftRight_add, Nat.add_comm]

/-- A byte that has been moved up comes back down unchanged. -/
theorem crcAdvance_shiftLeft (b : Byte) {n : Nat} (hn : n ≤ 8) :
    crcAdvance n (b.setWidth 16 <<< n) = b.setWidth 16 := by
  rw [crcAdvance_of_low_bits_zero n _ fun i hi => by simp [hi]]
  apply BitVec.eq_of_getLsbD_eq
  intro i hi
  by_cases hbyte : i < 8
  · have hfits : n + i < 16 := by omega
    simp [hfits, hi]
  · simp [BitVec.getLsbD_of_ge b i (by omega)]

/-- Fewer than 120 steps do not bring the lowest bit back: the polynomial's order is larger. -/
theorem crcAdvance_one_ne_one : ∀ n < 120, n ≠ 0 → crcAdvance n 1 ≠ 1 := by decide +kernel

/-- Within the 120 bits of an input, a bit's effect on the register tells its position. -/
theorem crcAdvance_one_ne_of_lt {m n : Nat} (hmn : m < n) (hn : n ≤ 120) (hm : 0 < m) :
    crcAdvance n 1 ≠ crcAdvance m 1 := fun h =>
  crcAdvance_one_ne_one (n - m) (by omega) (by omega) (Function.iterate_cancel lutGenStep_injective h)

/-! The register as two bytes. -/

/-- CK's pair of a register: `c1` is the low byte. -/
def bytePair (v : Half) : Byte × Byte := (lowByte v, highByte v)

theorem bytePair_injective : Function.Injective bytePair := by
  intro v w h
  obtain ⟨hlow, hhigh⟩ := Prod.ext_iff.mp h
  rw [← joinBytes_split v, ← joinBytes_split w]
  exact congrArg₂ joinBytes hhigh hlow

/-- Bytewise exclusive OR of two pairs (R109). -/
def pairXor (x y : Byte × Byte) : Byte × Byte := (x.1 ^^^ y.1, x.2 ^^^ y.2)

theorem pairXor_bytePair (v w : Half) : pairXor (bytePair v) (bytePair w) = bytePair (v ^^^ w) := by
  simp only [pairXor, bytePair, lowByte, highByte, BitVec.extractLsb'_xor]

theorem joinBytes_eq_xor (hi lo : Byte) : joinBytes hi lo = lo.setWidth 16 ^^^ hi.setWidth 16 <<< 8 := by
  apply BitVec.eq_of_getLsbD_eq
  intro i hi'
  by_cases hbyte : i < 8
  · rw [joinBytes, BitVec.getLsbD_append]
    simp [hbyte, hi']
  · rw [joinBytes, BitVec.getLsbD_append]
    simp [hbyte, hi', BitVec.getLsbD_of_ge lo i (by omega)]

theorem joinBytes_inj {hi lo hi' lo' : Byte} : joinBytes hi lo = joinBytes hi' lo' ↔ hi = hi' ∧ lo = lo' := by
  constructor
  · intro h
    exact ⟨by simpa using congrArg highByte h, by simpa using congrArg lowByte h⟩
  · rintro ⟨rfl, rfl⟩
    rfl

/-! Advancing the register by bytes. -/

/-- The register after one input byte. -/
def crcByte (r : Half) (b : Byte) : Half := crcAdvance 8 (r ^^^ b.setWidth 16)

/-- The register after a string of input bytes. -/
def crcFold (r : Half) (bytes : List Byte) : Half := bytes.foldl crcByte r

theorem crcFold_cons (r : Half) (b : Byte) (bytes : List Byte) :
    crcFold r (b :: bytes) = crcFold (crcByte r b) bytes := rfl

theorem crcByte_xor (r d : Half) (b : Byte) : crcByte (r ^^^ d) b = crcByte r b ^^^ crcAdvance 8 d := by
  rw [crcByte, crcByte, ← crcAdvance_xor]
  congr 1
  ac_rfl

/-- A difference in the register is only advanced by further input. -/
theorem crcFold_xor (bytes : List Byte) :
    ∀ r d : Half, crcFold (r ^^^ d) bytes = crcFold r bytes ^^^ crcAdvance (8 * bytes.length) d := by
  induction bytes with
  | nil => intro r d; rfl
  | cons b bytes ih =>
    intro r d
    rw [crcFold_cons, crcFold_cons, crcByte_xor, ih, ← crcAdvance_add, List.length_cons, Nat.mul_succ]

theorem crcFold_xor_crcFold (r t : Half) (bytes : List Byte) :
    crcFold r bytes ^^^ crcFold t bytes = crcAdvance (8 * bytes.length) (r ^^^ t) := by
  have hsplit : crcFold t bytes = crcFold r bytes ^^^ crcAdvance (8 * bytes.length) (r ^^^ t) := by
    rw [← crcFold_xor, ← BitVec.xor_assoc, BitVec.xor_self, BitVec.zero_xor]
  rw [hsplit, ← BitVec.xor_assoc, BitVec.xor_self, BitVec.zero_xor]

/-- Two input bytes act as one 16-bit value, the first in the low byte. -/
theorem crcByte_crcByte (r : Half) (x y : Byte) :
    crcByte (crcByte r x) y = crcAdvance 16 (r ^^^ joinBytes y x) := by
  have hy : y.setWidth 16 = crcAdvance 8 (y.setWidth 16 <<< 8) := (crcAdvance_shiftLeft y (by decide)).symm
  rw [crcByte, crcByte, hy, ← crcAdvance_xor, ← crcAdvance_add, joinBytes_eq_xor, BitVec.xor_assoc]

/-! CK as a register. -/

/-- The accumulator as a 16-bit register, `c1` in the low byte. -/
def register (acc : ChecksumState) : Half := joinBytes acc.c0 acc.c1

theorem lutRead_default {c : Configuration} (hc : c.lut = defaultLut) (index : Byte) :
    lutRead c index = crcAdvance 8 (index.setWidth 16) := by
  have hentry : lutRead c index = lutGenEntry defaultPoly index.toNat := by
    have hlt : index.toNat < lutEntries := index.isLt
    simp [lutRead, hc, defaultLut_eq_generatedLut, generatedLut, List.getD_eq_getElem?_getD, hlt]
  rw [hentry, lutGenEntry_eq_iterate, BitVec.ofNat_toNat]
  rfl

/-- Under the default table the fold step is the byte step of the register. -/
theorem register_fold {c : Configuration} (hc : c.lut = defaultLut) (acc : ChecksumState) (b : Byte) :
    register (fold c acc b) = crcByte (register acc) b := by
  obtain ⟨c1, c0, pos⟩ := acc
  have hregister : register ⟨c1, c0, pos⟩ ^^^ b.setWidth 16 = (c1 ^^^ b).setWidth 16 ^^^ c0.setWidth 16 <<< 8 := by
    rw [register, joinBytes_eq_xor, BitVec.setWidth_xor]
    ac_rfl
  calc register (fold c ⟨c1, c0, pos⟩ b)
      = c0.setWidth 16 ^^^ joinBytes (highByte (lutRead c (c1 ^^^ b))) (lowByte (lutRead c (c1 ^^^ b))) := by
        simp only [register, fold, joinBytes_eq_xor, BitVec.setWidth_xor, BitVec.xor_assoc]
    _ = crcAdvance 8 (c0.setWidth 16 <<< 8) ^^^ crcAdvance 8 ((c1 ^^^ b).setWidth 16) := by
        rw [joinBytes_split, lutRead_default hc, crcAdvance_shiftLeft c0 (by decide)]
    _ = crcByte (register ⟨c1, c0, pos⟩) b := by
        rw [crcByte, hregister, crcAdvance_xor, BitVec.xor_comm]

theorem register_foldl {c : Configuration} (hc : c.lut = defaultLut) (bytes : List Byte) :
    ∀ acc : ChecksumState, register (bytes.foldl (fold c) acc) = crcFold (register acc) bytes := by
  induction bytes with
  | nil => intro acc; rfl
  | cons b bytes ih => intro acc; rw [List.foldl_cons, ih, register_fold hc, crcFold_cons]

/-- The register at the end of a checksum computation. -/
def ckRegister (c : Configuration) (form : CkForm) (b : List Byte) : Half := register (ckState c form b)

theorem ck_eq_bytePair (c : Configuration) (form : CkForm) (b : List Byte) :
    ck c form b = bytePair (ckRegister c form b) := by
  simp [ck, bytePair, ckRegister, register]

theorem ck_eq_ck_iff {c : Configuration} {form : CkForm} {b b' : List Byte} :
    ck c form b = ck c form b' ↔ ckRegister c form b = ckRegister c form b' := by
  rw [ck_eq_bytePair, ck_eq_bytePair, bytePair_injective.eq_iff]

theorem ckRegister_eq_crcFold {c : Configuration} (hc : c.lut = defaultLut) (form : CkForm) (b : List Byte) :
    ckRegister c form b = crcFold (register (seed c form)) (b.drop (seed c form).pos) :=
  register_foldl hc _ _

/-- The bytes after the header are folded from the state the header leaves. -/
theorem ckState_header (c : Configuration) (form : CkForm) (x y : Byte) (rest : List Byte) :
    ckState c form (x :: y :: rest) = rest.foldl (fold c) (ckState c form [x, y]) := by
  cases form with
  | a | b | c => rfl

theorem ckRegister_header {c : Configuration} (hc : c.lut = defaultLut) (form : CkForm) (x y : Byte)
    (rest : List Byte) : ckRegister c form (x :: y :: rest) = crcFold (ckRegister c form [x, y]) rest := by
  rw [ckRegister, ckState_header, register_foldl hc, ckRegister]

end Sys2Proof.Machine
end

section
/-! SUPPORT. CK detects changes of one and two bits (spec/40_checksum.md R114): a flipped bit adds to the register an
advance of 1 that tells the bit's position. -/

namespace Sys2Proof.Machine

@[simp] theorem length_flipBit (b : List Byte) (k : Nat) : (flipBit b k).length = b.length := by simp [flipBit]

theorem flipBit_cons_of_lt (x : Byte) (b : List Byte) {k : Nat} (hk : k < 8) :
    flipBit (x :: b) k = (x ^^^ 1#8 <<< k) :: b := by
  simp [flipBit, byteAt, Nat.div_eq_of_lt hk, Nat.mod_eq_of_lt hk]

theorem flipBit_cons_add (x : Byte) (b : List Byte) (k : Nat) : flipBit (x :: b) (k + 8) = x :: flipBit b k := by
  simp [flipBit, byteAt]

theorem drop_flipBit (b : List Byte) {k m : Nat} (hm : 8 * m ≤ k) :
    (flipBit b k).drop m = flipBit (b.drop m) (k - 8 * m) := by
  obtain ⟨j, rfl⟩ := Nat.exists_eq_add_of_le hm
  have hdiv : (8 * m + j) / 8 = m + j / 8 := by omega
  have hmod : (8 * m + j) % 8 = j % 8 := by omega
  simp [flipBit, byteAt, List.drop_set, hdiv, hmod]

/-- Flipping bit `k` of a byte is seen after the remaining `8 - k` steps. -/
theorem crcByte_flip (r : Half) (x : Byte) {k : Nat} (hk : k < 8) :
    crcByte r (x ^^^ 1#8 <<< k) = crcByte r x ^^^ crcAdvance (8 - k) 1 := by
  have hwiden : (1#8 <<< k).setWidth 16 = (1#8).setWidth 16 <<< k := by
    interval_cases k <;> rfl
  have hbit : crcAdvance 8 ((1#8 <<< k).setWidth 16) = crcAdvance (8 - k) 1 := by
    have hsteps : crcAdvance 8 = crcAdvance (8 - k + k) := by rw [Nat.sub_add_cancel hk.le]
    rw [hwiden, hsteps, crcAdvance_add, crcAdvance_shiftLeft 1#8 hk.le]
    rfl
  rw [crcByte, crcByte, BitVec.setWidth_xor, ← BitVec.xor_assoc, crcAdvance_xor, hbit]

/-- Flipping a bit of a string is seen after the remaining steps. -/
theorem crcFold_flipBit (b : List Byte) : ∀ (r : Half) (k : Nat), k < 8 * b.length →
    crcFold r (flipBit b k) = crcFold r b ^^^ crcAdvance (8 * b.length - k) 1 := by
  induction b with
  | nil => intro r k hk; simp at hk
  | cons x b ih =>
    intro r k hk
    rw [List.length_cons] at hk ⊢
    obtain hlt | ⟨j, rfl⟩ : k < 8 ∨ ∃ j, k = j + 8 := by
      by_cases h : k < 8
      · exact .inl h
      · exact .inr ⟨k - 8, by omega⟩
    · have hsteps : 8 * (b.length + 1) - k = 8 * b.length + (8 - k) := by omega
      rw [flipBit_cons_of_lt x b hlt, crcFold_cons, crcFold_cons, crcByte_flip r x hlt, crcFold_xor, hsteps,
        crcAdvance_add]
    · have hsteps : 8 * (b.length + 1) - (j + 8) = 8 * b.length - j := by omega
      rw [flipBit_cons_add, crcFold_cons, crcFold_cons, ih _ _ (by omega), hsteps]

section ReadBits

variable {c : Configuration} {form : CkForm} {b : List Byte}

/-- Flipping a bit that the form reads adds an advance of 1 to CK's register. -/
theorem ckRegister_flipBit (hc : c.lut = defaultLut) (hb : b.length = 15) {k : Nat}
    (hread : 8 * (seed c form).pos ≤ k) (hk : k < 120) :
    ckRegister c form (flipBit b k) = ckRegister c form b ^^^ crcAdvance (120 - k) 1 := by
  have hpos := seed_pos_le c form
  have hsteps : 8 * (15 - (seed c form).pos) - (k - 8 * (seed c form).pos) = 120 - k := by omega
  rw [ckRegister_eq_crcFold hc, ckRegister_eq_crcFold hc, drop_flipBit b hread,
    crcFold_flipBit _ _ _ (by rw [List.length_drop, hb]; omega), List.length_drop, hb, hsteps]

/-- One flipped bit that the form reads changes CK. -/
theorem ck_flipBit_ne (hc : c.lut = defaultLut) (hb : b.length = 15) {k : Nat}
    (hread : 8 * (seed c form).pos ≤ k) (hk : k < 120) : ck c form (flipBit b k) ≠ ck c form b := by
  rw [Ne, ck_eq_ck_iff, ckRegister_flipBit hc hb hread hk]
  intro h
  have hzero : crcAdvance (120 - k) 1 = crcAdvance (120 - k) 0#16 := by
    rw [crcAdvance_of_zero]
    simpa using h
  exact absurd (crcAdvance_injective _ hzero) (by decide)

/-- Two different flipped bits that the form reads change CK. -/
theorem ck_flipBit_flipBit_ne (hc : c.lut = defaultLut) (hb : b.length = 15) {j k : Nat}
    (hreadj : 8 * (seed c form).pos ≤ j) (hj : j < 120) (hreadk : 8 * (seed c form).pos ≤ k) (hk : k < 120)
    (hjk : j ≠ k) : ck c form (flipBit (flipBit b j) k) ≠ ck c form b := by
  rw [Ne, ck_eq_ck_iff, ckRegister_flipBit hc (by simpa using hb) hreadk hk, ckRegister_flipBit hc hb hreadj hj,
    BitVec.xor_assoc]
  intro h
  have hsame : crcAdvance (120 - j) 1 = crcAdvance (120 - k) 1 := by simpa using h
  rcases Nat.lt_or_gt_of_ne hjk with hlt | hgt
  · exact crcAdvance_one_ne_of_lt (by omega) (by omega) (by omega) hsame
  · exact crcAdvance_one_ne_of_lt (by omega) (by omega) (by omega) hsame.symm

end ReadBits

/-- Settles O22: forms A and B read every bit, every form reads those from offset 2 on, and form C drops the header. -/
theorem checksumDetectsOneAndTwoBitChanges : Obligations.ChecksumDetectsOneAndTwoBitChanges := by
  intro c hc
  refine ⟨fun form b hform hb => ?_, ck_form_c_header c, fun form b hb k hk hlow => ?_⟩
  · have hpos : (seed c form).pos = 0 := by rw [seed_pos, if_neg hform]
    have hread : ∀ k, 8 * (seed c form).pos ≤ k := fun k => by omega
    exact ⟨fun k hk => ck_flipBit_ne hc hb (hread k) hk,
      fun j hj k hk hjk => ck_flipBit_flipBit_ne hc hb (hread j) hj (hread k) hk hjk⟩
  · have hpos := seed_pos_le c form
    exact ck_flipBit_ne hc hb (by omega) hk

end Sys2Proof.Machine
end

section
/-! SUPPORT. Form A and the bit-serial CRC (spec/40_checksum.md R117), and the differences of the three forms (R109). -/

namespace Sys2Proof.Machine

/-- One bit of the CRC, the bit being the lowest of `y`: the register advances and `y` moves down. -/
theorem crcBit_xor (r y : Half) :
    crcBit (r ^^^ y) (y.getLsbD 0) = lutGenStep defaultPoly r ^^^ y >>> 1 := by
  have hbit : ((r ^^^ y).getLsbD 0 != y.getLsbD 0) = r.getLsbD 0 := by
    rw [BitVec.getLsbD_xor]
    cases r.getLsbD 0 <;> cases y.getLsbD 0 <;> rfl
  unfold crcBit lutGenStep
  rw [hbit, BitVec.ushiftRight_xor_distrib, show (0x8408 : Half) = defaultPoly from rfl]
  split
  · ac_rfl
  · rfl

/-- After `n` bits of a byte the CRC is the register advanced over the whole byte, less the bits not yet read. -/
theorem foldl_crcBit (r : Half) (b : Byte) (n : Nat) :
    (List.range n).foldl (fun r k => crcBit r (b.getLsbD k)) r =
      crcAdvance n (r ^^^ b.setWidth 16) ^^^ b.setWidth 16 >>> n := by
  induction n with
  | zero => simp [crcAdvance]
  | succ n ih =>
    have hnext : b.getLsbD n = (b.setWidth 16 >>> n).getLsbD 0 := by
      by_cases hn : n < 16
      · simp [hn]
      · simp [hn, BitVec.getLsbD_of_ge b n (by omega)]
    rw [List.range_succ, List.foldl_append, ih, List.foldl_cons, List.foldl_nil, hnext, crcBit_xor,
      ← crcAdvance_succ, ← BitVec.shiftRight_add]

/-- The bit-serial CRC is the zero-seeded byte fold. -/
theorem crcKermit_eq_crcFold (bytes : List Byte) : crcKermit bytes = crcFold 0 bytes := by
  have hbyte : (fun crc (b : Byte) => (List.range 8).foldl (fun r k => crcBit r (b.getLsbD k)) crc) = crcByte := by
    funext r b
    have hread : b.setWidth 16 >>> 8 = 0#16 := by
      apply BitVec.eq_of_getLsbD_eq
      intro i _
      simp
    rw [foldl_crcBit, hread, BitVec.xor_zero, crcByte]
  rw [crcKermit, hbyte, crcFold]

/-- Settles O23: a correct header leaves register 0, from which the fold is the CRC; the two values are evaluated. -/
theorem formAIsKermit : Obligations.FormAIsKermit := by
  refine ⟨fun rest _ => ?_, by decide +kernel, by decide +kernel⟩
  have hheader : ckRegister defaultConfig .a [0xCA, 0x35] = 0 :=
    congrArg register (ckState_correct_header (c := defaultConfig) rfl [])
  rw [ck_eq_bytePair, ckRegister_header rfl, hheader, ← crcKermit_eq_crcFold, bytePair, lowByte_eq, highByte_eq]

/-! The three forms. -/

theorem pairXor_ck (c : Configuration) (form form' : CkForm) (b b' : List Byte) :
    pairXor (ck c form b) (ck c form' b') = bytePair (ckRegister c form b ^^^ ckRegister c form' b') := by
  rw [ck_eq_bytePair, ck_eq_bytePair, pairXor_bytePair]

/-- The difference of two forms is that of the states the header leaves, advanced over the rest. -/
theorem pairXor_ck_header {c : Configuration} (hc : c.lut = defaultLut) (form form' : CkForm) (x y : Byte)
    (rest : List Byte) :
    pairXor (ck c form (x :: y :: rest)) (ck c form' (x :: y :: rest)) =
      bytePair (crcAdvance (8 * rest.length) (ckRegister c form [x, y] ^^^ ckRegister c form' [x, y])) := by
  rw [pairXor_ck, ckRegister_header hc form, ckRegister_header hc form', crcFold_xor_crcFold]

/-- Forms A and B read the header as one 16-bit value. -/
theorem ckRegister_pair {c : Configuration} (hc : c.lut = defaultLut) {form : CkForm} (hform : form ≠ .c)
    (x y : Byte) : ckRegister c form [x, y] = crcAdvance 16 (register (seed c form) ^^^ joinBytes y x) := by
  rw [ckRegister_eq_crcFold hc, seed_pos, if_neg hform, ← crcByte_crcByte]
  rfl

/-- Forms A and B leave different states after different headers. -/
theorem ckRegister_pair_inj {c : Configuration} (hc : c.lut = defaultLut) {form : CkForm} (hform : form ≠ .c)
    {x y x' y' : Byte} : ckRegister c form [x, y] = ckRegister c form [x', y'] ↔ x = x' ∧ y = y' := by
  rw [ckRegister_pair hc hform, ckRegister_pair hc hform, (crcAdvance_injective 16).eq_iff, BitVec.xor_right_inj,
    joinBytes_inj, and_comm]

/-- The difference from form C tells the header: form C's state after it is the same for all. -/
theorem pairXor_ck_form_c_eq_iff {c : Configuration} (hc : c.lut = defaultLut) {form : CkForm} (hform : form ≠ .c)
    {b b' : List Byte} (hb : b.length = 15) (hb' : b'.length = 15) :
    pairXor (ck c form b) (ck c .c b) = pairXor (ck c form b') (ck c .c b') ↔ b.take 2 = b'.take 2 := by
  match b, b', hb, hb' with
  | x :: y :: rest, x' :: y' :: rest', hb, hb' =>
    have hrest : rest.length = rest'.length := by simp at hb hb'; omega
    have hformC : ckRegister c .c [x, y] = ckRegister c .c [x', y'] := rfl
    rw [pairXor_ck_header hc, pairXor_ck_header hc, hrest, bytePair_injective.eq_iff,
      (crcAdvance_injective _).eq_iff, hformC, BitVec.xor_left_inj, ckRegister_pair_inj hc hform]
    simp

/-- Settles O20: the differences are those of the states after the header, advanced over 13 bytes; the constants are
evaluated. -/
theorem formsDifferByFixedPairs : Obligations.FormsDifferByFixedPairs := by
  refine ⟨by decide +kernel, fun rest hrest => ?_, by decide +kernel, by decide +kernel, by decide +kernel,
    fun form b b' hform hb hb' => pairXor_ck_form_c_eq_iff rfl hform hb hb', fun form hform => ?_⟩
  · have hdiff := fun form form' => pairXor_ck_header (c := defaultConfig) rfl form form' 0xCA 0x35 rest
    rw [hrest] at hdiff
    exact ⟨(hdiff .a .b).trans (by decide +kernel), (hdiff .a .c).trans (by decide +kernel),
      (hdiff .b .c).trans (by decide +kernel)⟩
  · refine ⟨0 :: List.replicate 14 0, 1 :: List.replicate 14 0, by simp, by simp, by decide, by decide, ?_⟩
    exact (pairXor_ck_form_c_eq_iff rfl hform (by simp) (by simp)).not.mpr (by decide)

end Sys2Proof.Machine
end

section
/-! SUPPORT. The codec's byte strings as a header, a type, four packed records and a checksum pair
(spec/30_encoding.md R61 to R66): what each part of such a string reads back as. -/

namespace Sys2Proof.Machine

/-! A body followed by its checksum. -/

theorem byteAt_append_add (b rest : List Byte) (k : Nat) : byteAt (b ++ rest) (b.length + k) = byteAt rest k := by
  simp [byteAt, List.getElem?_append_right]

/-- The two bytes after a body of 15 are offsets 15 and 16. -/
theorem byteAt_append_pair {body : List Byte} (hb : body.length = 15) (x y : Byte) :
    (byteAt (body ++ [x, y]) 15, byteAt (body ++ [x, y]) 16) = (x, y) := by
  have hx := byteAt_append_add body [x, y] 0
  have hy := byteAt_append_add body [x, y] 1
  rw [hb] at hx hy
  exact congrArg₂ Prod.mk hx hy

theorem vf_iff {c : Configuration} {form : CkForm} {f : List Byte} :
    vf c form f = true ↔ ck c form (f.take 15) = (byteAt f 15, byteAt f 16) := beq_iff_eq

/-- A frame verifies exactly when the pair after its body is the body's checksum. -/
theorem vf_append_pair_iff {c : Configuration} {form : CkForm} {body : List Byte} (hb : body.length = 15)
    (x y : Byte) : vf c form (body ++ [x, y]) = true ↔ ck c form body = (x, y) := by
  rw [vf_iff, byteAt_append_pair hb, List.take_left' hb]

/-- Settles O24: the string before the pair is the one whose checksum the pair is. -/
theorem checksumRoundTrip : Obligations.ChecksumRoundTrip := by
  intro s form b hb
  have hvf : vf s.config form (b ++ [(ck s.config form b).1, (ck s.config form b).2]) = true :=
    (vf_append_pair_iff hb _ _).mpr rfl
  refine ⟨hvf, fun hm hf => ?_⟩
  have hlen : (b ++ [(ck s.config form b).1, (ck s.config form b).2]).length = frameLen := by
    simp [hb, frameLen]
  have hexec := exec_verify hm hf hlen
  rw [hvf] at hexec
  exact ⟨_, hexec⟩

/-! Records, and the records of a frame's four slots. -/

/-- The record is no filler of an unused slot (R132): its index is not 0xFF. -/
def usedRecord (r : Record) : Bool := r.index ≠ 0xFF

/-- The record written in slot `k` of a frame, used or not (R62, R66). -/
def slotAt (f : List Byte) (k : Nat) : Record :=
  ⟨byteAt f (3 + 3 * k), joinBytes (byteAt f (4 + 3 * k)) (byteAt f (5 + 3 * k))⟩

/-- The records written in a frame's four slots, used or not. -/
def frameSlots (f : List Byte) : List Record := (List.range 4).map (slotAt f)

theorem unpack_eq_guard (index hi lo : Byte) :
    unpack index hi lo = Option.guard usedRecord ⟨index, joinBytes hi lo⟩ := by
  simp only [unpack, Option.guard_eq_ite, usedRecord, decide_eq_true_eq, ite_not]
  rfl

/-- Settles O6: UNPACK joins the bytes that PACK splits, and keeps the records that are used. -/
theorem packAndUnpackFollowTheLayout : Obligations.PackAndUnpackFollowTheLayout := by
  refine ⟨fun r => ?_, fun index hi lo => ?_, fun r => ?_, fun index hi lo r h => ?_⟩
  · rw [pack, highByte_eq, lowByte_eq]
  · rw [unpack, ← joinBytes_toNat, BitVec.ofNat_toNat, BitVec.setWidth_eq]
    rfl
  · rw [unpack, joinBytes_split]
    rfl
  · rw [unpack] at h
    split_ifs at h
    cases h
    simp [pack]

theorem pack_slotAt (f : List Byte) (k : Nat) :
    pack (slotAt f k) = [byteAt f (3 + 3 * k), byteAt f (4 + 3 * k), byteAt f (5 + 3 * k)] := by
  simp [pack, slotAt]

/-- DE keeps the used ones of the four slots' records, in slot order (R133). -/
theorem frameMessage_eq (f : List Byte) : frameMessage f = ⟨byteAt f 2, (frameSlots f).filter usedRecord⟩ := by
  have hslot : slotRecord f = Option.guard usedRecord ∘ slotAt f := funext fun k => unpack_eq_guard ..
  rw [frameMessage, hslot, ← List.filterMap_map, List.filterMap_eq_filter]
  rfl

theorem frameSlots_eq (f : List Byte) : frameSlots f = [slotAt f 0, slotAt f 1, slotAt f 2, slotAt f 3] := rfl

@[simp] theorem length_frameSlots (f : List Byte) : (frameSlots f).length = 4 := rfl

/-! Strings with the layout of a frame. -/

/-- The body of a frame, offsets 0 to 14 (R61, R62): header, type and the slots' records. -/
def slotBody (h1 h2 type : Byte) (slots : List Record) : List Byte := h1 :: h2 :: type :: slots.flatMap pack

theorem length_slotBody {h1 h2 type : Byte} {slots : List Record} (hs : slots.length = 4) :
    (slotBody h1 h2 type slots).length = 15 := by
  simp [slotBody, hs]

theorem frameSlots_slotBody {h1 h2 type : Byte} {slots : List Record} (hs : slots.length = 4) (rest : List Byte) :
    frameSlots (slotBody h1 h2 type slots ++ rest) = slots := by
  match slots, hs with
  | [r₀, r₁, r₂, r₃], _ =>
    simp [frameSlots_eq, slotBody, slotAt, pack, byteAt]

/-- Every string of 17 bytes has the layout of a frame. -/
theorem slotBody_frameSlots {f : List Byte} (hf : f.length = 17) :
    slotBody (byteAt f 0) (byteAt f 1) (byteAt f 2) (frameSlots f) = f.take 15 := by
  match f, hf with
  | [_, _, _, _, _, _, _, _, _, _, _, _, _, _, _, _, _], _ =>
    simp [slotBody, frameSlots_eq, pack_slotAt, byteAt]

end Sys2Proof.Machine
end

section
/-! SUPPORT. EN's and DE's checks as the rules write them, the frame EN builds, and that DE reads it back
(spec/41_frame_codec.md R134, R135, R156). -/

namespace Sys2Proof.Machine

/-! DE's checks. -/

theorem headerOk_iff {c : Configuration} {buf : List Byte} :
    headerOk c buf = true ↔ byteAt buf 0 = c.h1 ∧ byteAt buf 1 = c.h2 := by
  simp [headerOk]

/-- DE's checks with R135's conditions written out. -/
theorem decodeError_eq (c : Configuration) (form : CkForm) (buf : List Byte) :
    decodeError c form buf =
      if buf.length ≠ 17 then some .badLength
      else if byteAt buf 0 ≠ c.h1 ∨ byteAt buf 1 ≠ c.h2 then some .badHeader
      else if c.checksumPolicy = .enforce ∧ ck c form (buf.take 15) ≠ (byteAt buf 15, byteAt buf 16) then
        some .checksumMismatch
      else none := by
  simp only [decodeError, headerOk_iff, vf_iff, not_and_or, frameLen]

theorem decodeError_eq_none_iff {c : Configuration} {form : CkForm} {buf : List Byte} :
    decodeError c form buf = none ↔ buf.length = 17 ∧ headerOk c buf = true ∧
      (c.checksumPolicy = .enforce → vf c form buf = true) := by
  unfold decodeError
  split_ifs <;> simp_all [frameLen]

/-- When DE returns a message, and which. -/
theorem de_eq_ok_iff {c : Configuration} {form : CkForm} {buf : List Byte} {m : Message} :
    de c form buf = .ok m ↔ (buf.length = 17 ∧ headerOk c buf = true ∧
      (c.checksumPolicy = .enforce → vf c form buf = true)) ∧ frameMessage buf = m := by
  rw [← decodeError_eq_none_iff]
  obtain ⟨e, he, hde⟩ | ⟨he, hde⟩ := de_cases c form buf <;> simp [he, hde]

theorem de_badHeader {c : Configuration} {form : CkForm} {buf : List Byte} (hlen : buf.length = 17)
    (hheader : headerOk c buf = false) : de c form buf = .error .badHeader := by
  simp [de, decodeError, frameLen, hlen, hheader]

theorem de_checksumMismatch {c : Configuration} {form : CkForm} {buf : List Byte} (hlen : buf.length = 17)
    (hheader : headerOk c buf = true) (henforce : c.checksumPolicy = .enforce) (hvf : vf c form buf = false) :
    de c form buf = .error .checksumMismatch := by
  simp [de, decodeError, frameLen, hlen, hheader, henforce, hvf]

/-! EN's checks. -/

theorem reservedType_iff {type : Byte} : reservedType type = true ↔ type ≠ 0x00 ∧ type ≠ 0x02 := by
  simp [reservedType, typeData, typeStatus]

theorem any_unusedWithValue_iff {rs : List Record} :
    rs.any unusedWithValue = true ↔ ∃ r ∈ rs, r.index = 0xFF ∧ r.value ≠ 0x0000 := by
  simp [unusedWithValue, unusedIndex]

/-- EN's checks with R134's conditions written out. -/
theorem encodeError_eq (c : Configuration) (type : Byte) (rs : List Record) :
    encodeError c type rs =
      if 4 < rs.length then some .tooManyRecords
      else if c.reservedTypePolicy = .reject ∧ type ≠ 0x00 ∧ type ≠ 0x02 then some .reservedType
      else if c.ffRecordPolicy = .reject ∧ ∃ r ∈ rs, r.index = 0xFF ∧ r.value ≠ 0x0000 then
        some .unusedSlotValue
      else none := by
  simp only [encodeError, reservedType_iff, any_unusedWithValue_iff, maxRecords]

/-- When EN returns a frame, and which. -/
theorem en_eq_ok_iff {c : Configuration} {form : CkForm} {type : Byte} {rs : List Record} {f : List Byte} :
    en c form type rs = .ok f ↔ encodeError c type rs = none ∧
      frameBody c type rs ++ [(ck c form (frameBody c type rs)).1, (ck c form (frameBody c type rs)).2] = f := by
  obtain ⟨e, he, hen⟩ | ⟨he, hen⟩ := en_cases c form type rs <;> simp [he, hen]

/-! The frame EN builds. -/

/-- The records of EN's four slots: those supplied, then unused ones (R133). -/
def paddedRecords (rs : List Record) : List Record := rs ++ List.replicate (4 - rs.length) unusedRecord

theorem frameBody_eq_slotBody (c : Configuration) (type : Byte) (rs : List Record) :
    frameBody c type rs = slotBody c.h1 c.h2 type (paddedRecords rs) := rfl

theorem length_paddedRecords {rs : List Record} (h : rs.length ≤ 4) : (paddedRecords rs).length = 4 := by
  simp only [paddedRecords, List.length_append, List.length_replicate]
  omega

theorem filter_paddedRecords (rs : List Record) : (paddedRecords rs).filter usedRecord = rs.filter usedRecord := by
  have hunused : usedRecord unusedRecord = false := rfl
  simp [paddedRecords, hunused]

theorem getElem?_paddedRecords (rs : List Record) {k : Nat} (hk : k < 4) :
    (paddedRecords rs)[k]? = some (rs[k]?.getD unusedRecord) := by
  by_cases h : k < rs.length
  · simp [paddedRecords, List.getElem?_append_left, h]
  · have hpad : k - rs.length < 4 - rs.length := by omega
    simp [paddedRecords, List.getElem?_append_right, Nat.le_of_not_lt h, hpad]

theorem getElem?_frameSlots (f : List Byte) {k : Nat} (hk : k < 4) : (frameSlots f)[k]? = some (slotAt f k) := by
  simp [frameSlots, hk]

theorem frameSlots_frameBody (c : Configuration) (type : Byte) {rs : List Record} (h : rs.length ≤ 4)
    (rest : List Byte) : frameSlots (frameBody c type rs ++ rest) = paddedRecords rs :=
  frameSlots_slotBody (length_paddedRecords h) rest

/-- Slot `k` of the frame holds record `k`, or padding after the last. -/
theorem slotAt_frameBody (c : Configuration) (type : Byte) {rs : List Record} (h : rs.length ≤ 4)
    (rest : List Byte) {k : Nat} (hk : k < 4) :
    slotAt (frameBody c type rs ++ rest) k = rs[k]?.getD unusedRecord := by
  rw [← Option.some_inj, ← getElem?_frameSlots _ hk, frameSlots_frameBody c type h, getElem?_paddedRecords rs hk]

/-- The message of the frame EN builds. -/
theorem frameMessage_frameBody (c : Configuration) (type : Byte) {rs : List Record} (h : rs.length ≤ 4)
    (rest : List Byte) : frameMessage (frameBody c type rs ++ rest) = ⟨type, rs.filter usedRecord⟩ := by
  rw [frameMessage_eq, frameSlots_frameBody c type h, filter_paddedRecords]
  rfl

/-- Settles O27: EN's frame passes DE's three checks, the checksum being that of its own body, and its slots are the
records and padding that DE drops. -/
theorem decodeOfEncodedFrameFiltersRecords : Obligations.DecodeOfEncodedFrameFiltersRecords := by
  intro c form policy type rs f hen
  obtain ⟨herr, rfl⟩ := en_eq_ok_iff.mp hen
  have hcount := length_le_of_encodeError_none herr
  have hbody : (frameBody c type rs).length = 15 := length_frameBody c type hcount
  refine de_eq_ok_iff.mpr ⟨⟨?_, ?_, fun _ => ?_⟩, frameMessage_frameBody c type hcount _⟩
  · simp [hbody]
  · exact headerOk_iff.mpr ⟨rfl, rfl⟩
  · rw [vf_checksumPolicy]
    exact (vf_append_pair_iff hbody _ _).mpr rfl

/-! The commands ENCODE and DECODE. -/

/-- Settles O25: the ladder is EN's checks; the frame's parts are read back from its body and pair. -/
theorem encodeAnswersTheFrame : Obligations.EncodeAnswersTheFrame := by
  intro s form type rs hm hf hl
  have herr := encodeError_eq s.config type rs
  split_ifs at herr ⊢ with hcount htype hvalue
  · exact exec_encode_error hm hf hl herr
  · exact exec_encode_error hm hf hl herr
  · exact exec_encode_error hm hf hl herr
  · have hfit : rs.length ≤ 4 := Nat.le_of_not_lt hcount
    have hbody : (frameBody s.config type rs).length = 15 := length_frameBody s.config type hfit
    refine ⟨_, _, exec_encode_ok hm hf herr, by simp [hbody], rfl, rfl, rfl, fun k hk => ?_, ?_⟩
    · rw [← pack_slotAt, slotAt_frameBody s.config type hfit _ hk]
      cases rs[k]? with
      | none => rfl
      | some r => simp only [Option.getD_some, pack, highByte_eq, lowByte_eq]
    · rw [byteAt_append_pair hbody, List.take_left' hbody]

/-- The used slots' records, by the offsets of the slots. -/
theorem frameMessage_records (f : List Byte) :
    (frameMessage f).records = ((List.range 4).filter fun k => byteAt f (3 + 3 * k) ≠ 0xFF).map (slotAt f) := by
  rw [frameMessage_eq]
  exact List.filter_map

/-- DECODE's payload, by the offsets of the used slots (R135). -/
theorem messageBytes_frameMessage (f : List Byte) :
    let used := ([3, 6, 9, 12] : List Nat).filter fun at_ => byteAt f at_ ≠ 0xFF
    messageBytes (frameMessage f) = byteAt f 2 :: BitVec.ofNat 8 used.length ::
      used.flatMap fun at_ => [byteAt f at_, byteAt f (at_ + 1), byteAt f (at_ + 2)] := by
  intro used
  have hused : used = ((List.range 4).filter fun k => byteAt f (3 + 3 * k) ≠ 0xFF).map (3 + 3 * ·) :=
    calc used = ((List.range 4).map (3 + 3 * ·)).filter fun at_ => byteAt f at_ ≠ 0xFF := rfl
      _ = _ := List.filter_map
  have hslot : ∀ k, pack (slotAt f k) =
      [byteAt f (3 + 3 * k), byteAt f (3 + 3 * k + 1), byteAt f (3 + 3 * k + 2)] := fun k => by
    rw [pack_slotAt, show 4 + 3 * k = 3 + 3 * k + 1 by omega, show 5 + 3 * k = 3 + 3 * k + 2 by omega]
  rw [messageBytes, frameMessage_records, hused]
  simp only [List.length_map, List.flatMap_map, hslot]
  rfl

/-- Settles O26: the ladder is DE's checks; under Bypass no checksum is computed. -/
theorem decodeAnswersTheMessage : Obligations.DecodeAnswersTheMessage := by
  intro s form buf hm hf hl
  have herr := decodeError_eq s.config form buf
  split_ifs at herr ⊢ with hlen hheader hsum
  · exact exec_decode_error hm hf hl herr (by decide)
  · exact exec_decode_error hm hf hl herr (by decide)
  · exact ⟨_, exec_decode_mismatch hm hf hl herr⟩
  · intro used
    have hexec := exec_decode_ok hm hf hl herr
    rw [messageBytes_frameMessage] at hexec
    refine ⟨_, fun hbypass => ?_, hexec⟩
    simp [decodeFolds, hbypass]

end Sys2Proof.Machine
end

section
/-! SUPPORT. Which frames EN gives back from their own message (spec/41_frame_codec.md R158), and that DE rejects every
frame with one bit flipped (R160). -/

namespace Sys2Proof.Machine

/-! Frames in normal form. -/

/-- A list is its elements that meet `p`, followed by copies of an element that does not, exactly when those that meet
`p` come first and all others are that element. -/
theorem filter_append_replicate_eq_iff {α : Type} {p : α → Bool} {u : α} (hu : p u = false) (l : List α) :
    l.filter p ++ List.replicate (l.length - (l.filter p).length) u = l ↔
      ∃ n ≤ l.length, (∀ x ∈ l.take n, p x = true) ∧ ∀ x ∈ l.drop n, x = u := by
  constructor
  · intro h
    have htake : l.filter p = l.take (l.filter p).length := List.take_left.symm.trans (congrArg (List.take _) h)
    have hdrop : List.replicate _ u = l.drop (l.filter p).length :=
      List.drop_left.symm.trans (congrArg (List.drop _) h)
    refine ⟨(l.filter p).length, List.length_filter_le p l, fun x hx => ?_, fun x hx => ?_⟩
    · rw [← htake] at hx
      exact List.of_mem_filter hx
    · rw [← hdrop] at hx
      exact List.eq_of_mem_replicate hx
  · rintro ⟨n, hn, hfirst, hlast⟩
    have hkept : l.filter p = l.take n := by
      have hnone : (l.drop n).filter p = [] := List.filter_eq_nil_iff.mpr fun x hx => by simp [hlast x hx, hu]
      conv_lhs => rw [← List.take_append_drop n l, List.filter_append, List.filter_eq_self.mpr hfirst, hnone]
      exact List.append_nil _
    have hpad : l.drop n = List.replicate (l.length - n) u :=
      List.eq_replicate_iff.mpr ⟨List.length_drop, hlast⟩
    rw [hkept, List.length_take_of_le hn, ← hpad, List.take_append_drop]

theorem forall_mem_take_frameSlots {f : List Byte} {P : Record → Prop} {n : Nat} (hn : n ≤ 4) :
    (∀ r ∈ (frameSlots f).take n, P r) ↔ ∀ k < n, P (slotAt f k) := by
  simp [frameSlots, ← List.map_take, List.take_range, hn]

theorem forall_mem_drop_frameSlots {f : List Byte} {P : Record → Prop} {n : Nat} (hn : n ≤ 4) :
    (∀ r ∈ (frameSlots f).drop n, P r) ↔ ∀ k < 4, n ≤ k → P (slotAt f k) := by
  have hrange : (List.range 4).drop n = List.range' n (4 - n) := by
    simp [List.range_eq_range']
  simp only [frameSlots, ← List.map_drop, hrange, List.forall_mem_map, List.mem_range'_1]
  exact ⟨fun h k hk hnk => h k ⟨hnk, by omega⟩, fun h k hk => h k (by omega) hk.1⟩

theorem slotAt_eq_unusedRecord_iff {f : List Byte} {k : Nat} : slotAt f k = unusedRecord ↔
    byteAt f (3 + 3 * k) = 0xFF ∧ byteAt f (4 + 3 * k) = 0x00 ∧ byteAt f (5 + 3 * k) = 0x00 := by
  have hzero : (0 : Half) = joinBytes 0x00 0x00 := rfl
  rw [slotAt, unusedRecord, Record.mk.injEq, hzero, joinBytes_inj]
  rfl

/-- Padding the used ones of a frame's records gives its slots exactly when unused slots hold the padding record and
come last. -/
theorem paddedRecords_filter_frameSlots_iff {f : List Byte} :
    paddedRecords ((frameSlots f).filter usedRecord) = frameSlots f ↔
      ∃ n ≤ 4, (∀ k < n, byteAt f (3 + 3 * k) ≠ 0xFF) ∧
        ∀ k < 4, n ≤ k → byteAt f (3 + 3 * k) = 0xFF ∧ byteAt f (4 + 3 * k) = 0x00 ∧
          byteAt f (5 + 3 * k) = 0x00 := by
  have hnormal := filter_append_replicate_eq_iff (p := usedRecord) (u := unusedRecord) rfl (frameSlots f)
  rw [length_frameSlots] at hnormal
  refine hnormal.trans (exists_congr fun n => and_congr_right fun hn => ?_)
  rw [forall_mem_take_frameSlots hn, forall_mem_drop_frameSlots hn]
  simp only [slotAt_eq_unusedRecord_iff, usedRecord, decide_eq_true_eq]
  rfl

theorem take_append_pair {f : List Byte} (hf : f.length = 17) : f.take 15 ++ [byteAt f 15, byteAt f 16] = f := by
  match f, hf with
  | [_, _, _, _, _, _, _, _, _, _, _, _, _, _, _, _, _], _ => rfl

/-- EN gives a valid frame back from its type and other records exactly when these, padded, are the frame's slots. -/
theorem frame_eq_iff_paddedRecords {c : Configuration} {form : CkForm} {f : List Byte} {rs : List Record}
    (hlen : f.length = 17) (hheader : headerOk c f = true) (hvf : vf c form f = true) (hcount : rs.length ≤ 4) :
    frameBody c (byteAt f 2) rs ++
        [(ck c form (frameBody c (byteAt f 2) rs)).1, (ck c form (frameBody c (byteAt f 2) rs)).2] = f ↔
      paddedRecords rs = frameSlots f := by
  obtain ⟨h1, h2⟩ := headerOk_iff.mp hheader
  constructor
  · intro h
    rw [← frameSlots_frameBody c (byteAt f 2) hcount, h]
  · intro h
    have hbody : frameBody c (byteAt f 2) rs = f.take 15 := by
      rw [frameBody_eq_slotBody, h, ← h1, ← h2, slotBody_frameSlots hlen]
    rw [hbody, vf_iff.mp hvf, take_append_pair hlen]

/-- Settles O28: the default policies pass EN's checks on at most four records, so EN pads the used slots' records. -/
theorem encodeOfDecodedFrameRestores : Obligations.EncodeOfDecodedFrameRestores := by
  intro c form f m henforce haccept hverbatim hde
  obtain ⟨⟨hlen, hheader, hvf⟩, rfl⟩ := de_eq_ok_iff.mp hde
  rw [frameMessage_eq]
  have hcount : ((frameSlots f).filter usedRecord).length ≤ 4 := List.length_filter_le usedRecord (frameSlots f)
  have hchecks : encodeError c (byteAt f 2) ((frameSlots f).filter usedRecord) = none := by
    simp [encodeError_eq, haccept, hverbatim, hcount]
  rw [en_eq_ok_iff, and_iff_right hchecks, frame_eq_iff_paddedRecords hlen hheader (hvf henforce) hcount,
    paddedRecords_filter_frameSlots_iff]

/-! Frames with one bit flipped. -/

theorem take_flipBit (b : List Byte) (m : Nat) {k : Nat} (hk : k < 8 * m) :
    (flipBit b k).take m = flipBit (b.take m) k := by
  have hin : k / 8 < m := by omega
  simp [flipBit, List.take_set, byteAt, hin]

theorem take_flipBit_of_le (b : List Byte) {m k : Nat} (hk : 8 * m ≤ k) : (flipBit b k).take m = b.take m := by
  rw [flipBit, List.take_set, List.set_eq_of_length_le]
  rw [List.length_take]
  omega

/-- A flipped bit leaves the other offsets' bytes as they were. -/
theorem byteAt_flipBit_of_ne (b : List Byte) {j k : Nat} (hj : k / 8 ≠ j) : byteAt (flipBit b k) j = byteAt b j := by
  simp [flipBit, byteAt, hj]

/-- A flipped bit changes the byte of its offset. -/
theorem byteAt_flipBit_ne {b : List Byte} {j k : Nat} (hj : k / 8 = j) (hb : j < b.length) :
    byteAt (flipBit b k) j ≠ byteAt b j := by
  have hbit : ∀ i < 8, 1#8 <<< i ≠ 0#8 := by decide
  have hflip : byteAt (flipBit b k) j = byteAt b j ^^^ 1#8 <<< (k % 8) := by simp [flipBit, byteAt, hj, hb]
  simpa [hflip] using hbit (k % 8) (Nat.mod_lt _ (by decide))

/-- A bit flipped after the header makes CK and the pair in the frame differ: one of them changes. -/
theorem vf_flipBit_eq_false {c : Configuration} {form : CkForm} {f : List Byte} (hc : c.lut = defaultLut)
    (hlen : f.length = 17) (hvf : vf c form f = true) {k : Nat} (hlow : 16 ≤ k) (hk : k < 136) :
    vf c form (flipBit f k) = false := by
  rw [vf_iff] at hvf
  rw [Bool.eq_false_iff, Ne, vf_iff]
  by_cases hbody : k < 120
  · have hpos := seed_pos_le c form
    have hck := ck_flipBit_ne (form := form) (b := f.take 15) hc (by simp [hlen]) (by omega) hbody
    rwa [take_flipBit f 15 hbody, byteAt_flipBit_of_ne f (by omega), byteAt_flipBit_of_ne f (by omega), ← hvf]
  · rw [take_flipBit_of_le f (by omega), hvf, Prod.mk.injEq]
    rintro ⟨h15, h16⟩
    obtain hj | hj : k / 8 = 15 ∨ k / 8 = 16 := by omega
    · exact byteAt_flipBit_ne hj (by omega) h15.symm
    · exact byteAt_flipBit_ne hj (by omega) h16.symm

theorem headerOk_flipBit_of_le {c : Configuration} {f : List Byte} {k : Nat} (hlow : 16 ≤ k) :
    headerOk c (flipBit f k) = headerOk c f := by
  rw [headerOk, headerOk, byteAt_flipBit_of_ne f (by omega), byteAt_flipBit_of_ne f (by omega)]

theorem headerOk_flipBit_eq_false {c : Configuration} {f : List Byte} (hlen : f.length = 17)
    (hheader : headerOk c f = true) {k : Nat} (hk : k < 16) : headerOk c (flipBit f k) = false := by
  obtain ⟨h1, h2⟩ := headerOk_iff.mp hheader
  rw [Bool.eq_false_iff, Ne, headerOk_iff, ← h1, ← h2]
  rintro ⟨hsame0, hsame1⟩
  obtain hj | hj : k / 8 = 0 ∨ k / 8 = 1 := by omega
  · exact byteAt_flipBit_ne hj (by omega) hsame0
  · exact byteAt_flipBit_ne hj (by omega) hsame1

/-- Settles O29: a flip keeps the length; in the header it fails the header check, after it only the checksum's. -/
theorem decodeDetectsSingleBitFlips : Obligations.DecodeDetectsSingleBitFlips := by
  intro c form f m hc henforce hde
  obtain ⟨⟨hlen, hheader, hvf⟩, -⟩ := de_eq_ok_iff.mp hde
  refine ⟨fun k hk hlow => ?_, fun k hk => ?_⟩
  · refine de_checksumMismatch (by simp [hlen]) ?_ henforce (vf_flipBit_eq_false hc hlen (hvf henforce) hlow hk)
    rw [headerOk_flipBit_of_le hlow, hheader]
  · exact de_badHeader (by simp [hlen]) (headerOk_flipBit_eq_false hlen hheader hk)

end Sys2Proof.Machine
end

section
/-! SUPPORT. How the block answers a string that is no command, or one presented in FATAL
(spec/60_exceptions.md R173, R174, R177). -/

namespace Sys2Proof.Machine

/-! Illegal opcodes and wrong lengths. -/

/-- A nonempty string is illegal exactly by its first byte; with a legal opcode it is a command with its operands in
range, or malformed (R77 to R79). -/
theorem decode_cons_cases (op : Byte) (operands : List Byte) :
    (op ∉ ([0x01, 0x02, 0x03, 0x04, 0x05] : List Byte) ∧ decode (op :: operands) = .error .illegal) ∨
      (op ∈ ([0x01, 0x02, 0x03, 0x04, 0x05] : List Byte) ∧
        (decode (op :: operands) = .error .malformed ∨ ∃ i, decode (op :: operands) = .ok i ∧ i.wf = true)) := by
  have htabled := decodeAcceptsExactlyTheTabledLengths.2 op operands
  simp only [ite_prop_iff_or] at htabled
  obtain ⟨hop, ⟨-, hok⟩ | ⟨-, hmalformed⟩⟩ | ⟨hop, hillegal⟩ := htabled
  · exact .inr ⟨hop, .inr hok⟩
  · exact .inr ⟨hop, .inl hmalformed⟩
  · exact .inl ⟨hop, hillegal⟩

/-- Any first byte other than the five opcodes makes a string illegal (R77). -/
theorem decode_illegal_of_notMem {op : Byte} (operands : List Byte)
    (hop : op ∉ ([0x01, 0x02, 0x03, 0x04, 0x05] : List Byte)) : decode (op :: operands) = .error .illegal := by
  obtain ⟨-, hillegal⟩ | ⟨hlegal, -⟩ := decode_cons_cases op operands
  · exact hillegal
  · exact absurd hlegal hop

theorem runCommand_illegal {cmd : List Byte} {s : State} (hm : s.mode = .ready)
    (hd : decode cmd = .error .illegal) : runCommand cmd s = .next (raise .illegalCommand s) := by
  simp only [runCommand, hm, hd]

/-- A presented illegal string is answered by its status alone (R173). -/
theorem step_illegal {s : State} {cmd : List Byte} (hm : s.mode = .ready) (hr : s.respPort = none)
    (hc : s.cmdPort = some cmd) (hd : decode cmd = .error .illegal) :
    step s = .next { s with cmdPort := none, respPort := some [0x05] } := by
  rw [step_accepts hc hr]
  exact runCommand_illegal (s := accept s) hm hd

/-- Settles O9: the decoder reads the first byte before anything else. -/
theorem illegalOpcodeIsAnswered : Obligations.IllegalOpcodeIsAnswered :=
  fun _ _ operands hm hr hc hop => step_illegal hm hr hc (decode_illegal_of_notMem operands hop)

/-- ENCODE needs its count operand and three bytes per record (R73). -/
theorem decode_encode_wrong {operands : List Byte}
    (h : (3#8 :: operands).length < 3 ∨
      (3#8 :: operands).length ≠ 3 + 3 * (byteAt (3#8 :: operands) 2).toNat) :
    decode (3#8 :: operands) = .error .malformed := by
  match operands with
  | [] | [_] => exact decode_encode_short (by simp)
  | type :: n :: groups =>
    simp only [List.length_cons, byteAt, List.getD_cons_succ, List.getD_cons_zero] at h
    exact (decode_encode type n groups).trans (if_neg (by omega))

/-- DECODE needs its length operand and that many bytes (R74). -/
theorem decode_decode_wrong {operands : List Byte}
    (h : (4#8 :: operands).length < 3 ∨ (4#8 :: operands).length ≠
      3 + ((byteAt (4#8 :: operands) 1).toNat * 256 + (byteAt (4#8 :: operands) 2).toNat)) :
    decode (4#8 :: operands) = .error .malformed := by
  match operands with
  | [] | [_] => exact decode_decode_short (by simp)
  | hi :: lo :: buffer =>
    simp only [List.length_cons, byteAt, List.getD_cons_succ, List.getD_cons_zero] at h
    exact (decode_decode hi lo buffer).trans (if_neg (by rw [joinBytes_toNat]; omega))

/-- Settles O10: the empty string is malformed, and so is each opcode's string off its one length. -/
theorem wrongLengthIsAnswered : Obligations.WrongLengthIsAnswered := by
  intro s cmd hm hr hc hwrong
  refine step_malformed hm hr hc ?_
  match cmd with
  | [] => exact decode_nil
  | op :: operands =>
    have hop : byteAt (op :: operands) 0 = op := rfl
    rw [hop] at hwrong
    obtain hnil | ⟨rfl, h⟩ | ⟨rfl, h⟩ | ⟨rfl, h⟩ | ⟨rfl, h⟩ | ⟨rfl, h⟩ := hwrong
    · cases hnil
    · exact (decode_cksum operands).trans (if_neg (by simpa using h))
    · exact (decode_verify operands).trans (if_neg (by simpa using h))
    · exact decode_lutRead_wrong (by simpa using h)
    · exact decode_encode_wrong h
    · exact decode_decode_wrong h

/-! FATAL. -/

theorem runCommand_fatal {s : State} (cmd : List Byte) (hm : s.mode = .fatal) :
    runCommand cmd s = .next (raise .fatal s) := by
  simp only [runCommand, hm]

/-- In FATAL a presented string is answered unread (R177). -/
theorem step_fatal {s : State} {cmd : List Byte} (hm : s.mode = .fatal) (hr : s.respPort = none)
    (hc : s.cmdPort = some cmd) : step s = .next { s with cmdPort := none, respPort := some [0xFF] } := by
  rw [step_accepts hc hr]
  exact runCommand_fatal (s := accept s) cmd hm

/-- A step leaves MODE as it was (R27). -/
theorem step_mode {s t : State} (h : step s = .next t) : t.mode = s.mode := by
  obtain ⟨-, rfl⟩ | ⟨cmd, -, -, status, payload, acc, rfl, -, -⟩ := step_next h
  · rfl
  · simp

/-- Reset enters FATAL when the table lacks the property of R102 or CK_FORM is 3 (R203). -/
theorem modeAtReset_fatal_iff (c : Configuration) :
    modeAtReset c = .fatal ↔ ¬ LutWellFormed c.lut ∨ c.ckForm = 3 := by
  have hready : modeAtReset c = .ready ↔ LutWellFormed c.lut ∧ c.ckForm ≠ 3 :=
    (modeAtReset_ready c).trans (and_congr_right' (formOfBits_isSome c.ckForm))
  rw [← not_iff_not, not_or, not_not, ← hready]
  cases modeAtReset c <;> decide

/-- Settles O11: FATAL is tested before anything is read, no step writes MODE, and reset computes it. -/
theorem fatalAnswersEveryCommand : Obligations.FatalAnswersEveryCommand :=
  ⟨fun _ _ hm hr hc => step_fatal hm hr hc, fun _ i hm => exec_fatal i hm, fun _ _ h => by rw [step_mode h],
    modeAtReset_fatal_iff⟩

end Sys2Proof.Machine
end

section
/-! SUPPORT. Of the errors that apply to a presented string the first is reported (spec/60_exceptions.md R180). -/

namespace Sys2Proof.Machine

theorem firstFailed_cons (failed : Bool) (code : Byte) (checks : List (Bool × Byte)) :
    firstFailed ((failed, code) :: checks) = if failed then some code else firstFailed checks := by
  cases failed <;> rfl

theorem firstFailed_nil : firstFailed [] = none := rfl

/-- The first of a decoded command's own errors: EN's checks for ENCODE (R134), DE's for DECODE (R135), none for the
others. -/
def commandError (c : Configuration) (form : CkForm) : Instr → Option Status
  | .encode type records => encodeError c type records
  | .decode buf => decodeError c form buf
  | _ => none

/-- A command with an error of its own answers that error alone. -/
theorem exec_of_commandError {s : State} {form : CkForm} {i : Instr} {e : Status} (hm : s.mode = .ready)
    (hf : configForm s.config = some form) (hw : i.wf = true) (he : commandError s.config form i = some e) :
    ∃ acc, exec i s = .next (raise e (setAcc acc s)) := by
  cases i with
  | encode type records => exact ⟨s.acc, exec_encode_error hm hf (of_decide_eq_true hw) he⟩
  | decode buf =>
    have hl : buf.length < 2 ^ 16 := of_decide_eq_true hw
    obtain rfl | hsum := eq_or_ne e .checksumMismatch
    · exact ⟨_, exec_decode_mismatch hm hf hl he⟩
    · exact ⟨s.acc, exec_decode_error hm hf hl he hsum⟩
  | cksum | verify | lutRead => cases he

/-- A command without an error of its own completes. -/
theorem exec_of_no_commandError {s : State} {form : CkForm} {i : Instr} (hm : s.mode = .ready)
    (hf : configForm s.config = some form) (hw : i.wf = true) (he : commandError s.config form i = none) :
    ∃ payload acc, exec i s = .next (respond .ok payload (setAcc acc s)) := by
  cases i with
  | cksum body => exact ⟨_, _, exec_cksum hm hf (eq_of_beq hw)⟩
  | verify frame => exact ⟨_, _, exec_verify hm hf (eq_of_beq hw)⟩
  | encode type records => exact ⟨_, _, exec_encode_ok hm hf he⟩
  | decode buf => exact ⟨_, _, exec_decode_ok hm hf (of_decide_eq_true hw) he⟩
  | lutRead index => exact ⟨_, s.acc, exec_lutRead index hm hf⟩

theorem firstFailed_encode (c : Configuration) (type : Byte) (records : List Record) :
    firstFailed [(decide (4 < records.length), 0x01),
      (decide (c.reservedTypePolicy = .reject ∧ type ≠ 0x00 ∧ type ≠ 0x02), 0x07),
      (decide (c.ffRecordPolicy = .reject) && records.any (fun r => r.index == 0xFF && r.value != 0x0000), 0x08)] =
    (encodeError c type records).map statusCode := by
  rw [encodeError_eq]
  simp [firstFailed_cons, firstFailed_nil, apply_ite (Option.map statusCode), statusCode]

theorem firstFailed_decode (c : Configuration) (form : CkForm) (buf : List Byte) :
    firstFailed [(decide (buf.length ≠ 17), 0x02), (decide (byteAt buf 0 ≠ c.h1 ∨ byteAt buf 1 ≠ c.h2), 0x03),
      (decide (c.checksumPolicy = .enforce) && !vf c form buf, 0x04)] =
    (decodeError c form buf).map statusCode := by
  simp only [decodeError, headerOk_iff, not_and_or, frameLen]
  simp [firstFailed_cons, firstFailed_nil, apply_ite (Option.map statusCode), statusCode]

/-- A step answers with the first failed of `checks` alone, or with OK when none fails: what R180 asks of a ladder. -/
def ReportsFirstFailed (s : State) (checks : List (Bool × Byte)) : Prop :=
  match firstFailed checks with
  | some code => ∃ acc, step s = .next { s with cmdPort := none, acc := acc, respPort := some [code] }
  | none => ∃ t payload, step s = .next t ∧ t.respPort = some (0x00 :: payload)

theorem reportsFirstFailed_of_some {s : State} {checks : List (Bool × Byte)} {code : Byte}
    (hfirst : firstFailed checks = some code)
    (hstep : step s = .next { s with cmdPort := none, respPort := some [code] }) : ReportsFirstFailed s checks := by
  rw [ReportsFirstFailed, hfirst]
  exact ⟨s.acc, hstep⟩

/-- The step on a string that decodes reports by any ladder whose first failed check is the command's own error. -/
theorem reportsFirstFailed_of_decode {s : State} {cmd : List Byte} {form : CkForm} {i : Instr}
    {checks : List (Bool × Byte)} (hm : s.mode = .ready) (hr : s.respPort = none) (hc : s.cmdPort = some cmd)
    (hf : configForm s.config = some form) (hd : decode cmd = .ok i) (hw : i.wf = true)
    (hfirst : firstFailed checks = (commandError s.config form i).map statusCode) : ReportsFirstFailed s checks := by
  have hstep : step s = exec i (accept s) := by
    simp only [step_accepts hc hr, runCommand, accept_mode, hm, hd]
  rw [ReportsFirstFailed, hstep, hfirst]
  cases he : commandError s.config form i with
  | some e => exact exec_of_commandError (s := accept s) hm hf hw he
  | none =>
    obtain ⟨payload, acc, hexec⟩ := exec_of_no_commandError (s := accept s) hm hf hw he
    exact ⟨_, payload, hexec, rfl⟩

/-- Settles O12: the step stops at FATAL, the opcode or the length where the ladder does; below them the ladder lists
the checks of EN or DE. -/
theorem errorsFollowThePriority : Obligations.ErrorsFollowThePriority := by
  intro s cmd form hc hr hform illegal own
  change ReportsFirstFailed s ((decide (s.mode = .fatal), 0xFF) :: (illegal, 0x05) :: own)
  obtain hm | hready : s.mode = .fatal ∨ s.mode = .ready := by cases s.mode <;> decide
  · exact reportsFirstFailed_of_some (by simp [firstFailed_cons, hm]) (step_fatal hm hr hc)
  have hskip (hlegal : illegal = false) :
      firstFailed ((decide (s.mode = .fatal), 0xFF) :: (illegal, 0x05) :: own) = firstFailed own := by
    simp [firstFailed_cons, hready, hlegal]
  cases cmd with
  | nil => exact reportsFirstFailed_of_some (hskip rfl) (step_malformed hready hr hc decode_nil)
  | cons op operands =>
    obtain ⟨hop, hd⟩ | ⟨hop, hd | ⟨i, hd, hw⟩⟩ := decode_cons_cases op operands
    · have hillegal : illegal = true := decide_eq_true hop
      exact reportsFirstFailed_of_some (by simp [firstFailed_cons, hready, hillegal]) (step_illegal hready hr hc hd)
    · have hlegal : illegal = false := decide_eq_false (not_not.mpr hop)
      refine reportsFirstFailed_of_some ((hskip hlegal).trans ?_) (step_malformed hready hr hc hd)
      simp only [own, hd]
      rfl
    · have hlegal : illegal = false := decide_eq_false (not_not.mpr hop)
      refine reportsFirstFailed_of_decode hready hr hc (hform hready) hd hw ((hskip hlegal).trans ?_)
      simp only [own, hd]
      cases i with
      | encode type records => exact firstFailed_encode s.config type records
      | decode buf => exact firstFailed_decode s.config form buf
      | cksum | verify | lutRead => rfl

end Sys2Proof.Machine
end

section
/-! SUPPORT. What reset leaves in the configuration, MODE and the ports, and that nothing else writes the configuration
or MODE (spec/70_reset_and_hazards.md R203 to R208). -/

namespace Sys2Proof.Machine

/-! The values at reset. -/

/-- The three encodings of a form are the ones other than 3 (R22). -/
theorem ckForm_ne_three_iff (v : BitVec 2) : v ≠ 3 ↔ v = 0 ∨ v = 1 ∨ v = 2 := by
  revert v; decide

/-- MODE at reset in the field encodings of R203. -/
theorem modeAtReset_ready_iff (c : Configuration) :
    modeAtReset c = .ready ↔ LutWellFormed c.lut ∧ (c.ckForm = 0 ∨ c.ckForm = 1 ∨ c.ckForm = 2) :=
  (modeAtReset_ready c).trans
    (and_congr_right' ((formOfBits_isSome c.ckForm).trans (ckForm_ne_three_iff c.ckForm)))

/-- The default block is READY after reset (R203). -/
theorem reset_mode : State.reset.mode = .ready := by
  rw [State.reset, resetWith_mode, modeAtReset_ready_iff]
  exact ⟨lutWellFormed_defaultLut, .inl rfl⟩

/-- Settles O40: reset's test is the property of R102, which the default table has, and form A is legal. -/
theorem resetModeIsLegality : Obligations.ResetModeIsLegality := by
  refine ⟨fun c => ⟨modeAtReset_ready_iff c, ?_⟩, reset_mode⟩
  cases (State.resetWith c).mode with
  | ready => exact .inl rfl
  | fatal => exact .inr rfl

/-- Settles O39: the default configuration is R204's table, and `resetWith` takes whatever is presented. -/
theorem resetLeavesTheStatedValues : Obligations.ResetLeavesTheStatedValues :=
  ⟨rfl, rfl, rfl, rfl, rfl, rfl, rfl, resetWith_cmdPort _, resetWith_respPort _,
    fun c => ⟨resetWith_config c, resetWith_cmdPort c, resetWith_respPort c⟩⟩

/-! What each event of a session does. -/

/-- Presenting fills the empty command port and does nothing else (R29). -/
theorem present_eq_some_iff {cmd : List Byte} {s t : State} :
    present cmd s = some t ↔ s.cmdPort = none ∧ s.respPort = none ∧ t = { s with cmdPort := some cmd } := by
  simp [present, and_assoc, eq_comm]

/-- Taking the response empties the response port and does nothing else (R29). -/
theorem takeResponse_eq_some_iff {s t : State} {r : List Byte} :
    takeResponse s = some (r, t) ↔ s.respPort = some r ∧ t = { s with respPort := none } := by
  unfold takeResponse
  cases s.respPort <;> simp [eq_comm]

theorem sessionNext_present_iff {agent : Nat} {cmd : List Byte} {σ τ : Session} :
    sessionNext (.present agent cmd) σ = some τ ↔
      ∃ t, present cmd σ.block = some t ∧ τ = { σ with block := t, inFlight := some (agent, cmd) } := by
  simp [sessionNext, eq_comm]

theorem sessionNext_block_iff {σ τ : Session} :
    sessionNext .block σ = some τ ↔ ∃ t, step σ.block = .next t ∧ τ = { σ with block := t } := by
  cases hs : step σ.block <;> simp [sessionNext, hs, eq_comm]

theorem sessionNext_take_iff {σ τ : Session} :
    sessionNext .take σ = some τ ↔ ∃ r t agent cmd, takeResponse σ.block = some (r, t) ∧
      σ.inFlight = some (agent, cmd) ∧ τ = ⟨t, none, σ.log ++ [⟨agent, cmd, r⟩]⟩ := by
  cases ht : takeResponse σ.block <;> cases hf : σ.inFlight <;>
    simp [sessionNext, ht, hf, Prod.ext_iff, and_assoc, eq_comm]

/-! Nothing but a reset writes the configuration or MODE. -/

/-- A step leaves the configuration as it was (R208). -/
theorem step_config {s t : State} (h : step s = .next t) : t.config = s.config := by
  obtain ⟨-, rfl⟩ | ⟨cmd, -, -, status, payload, acc, rfl, -, -⟩ := step_next h
  · rfl
  · simp

/-- Settles O35: a step answers or waits, and the hosts' own events only fill or empty a port. -/
theorem onlyResetChangesTheConfiguration : Obligations.OnlyResetChangesTheConfiguration := by
  refine ⟨fun s t h => ⟨step_config h, step_mode h⟩, fun e σ τ h hreset => ?_⟩
  cases e with
  | present agent cmd =>
    obtain ⟨t, ht, rfl⟩ := sessionNext_present_iff.mp h
    obtain ⟨-, -, rfl⟩ := present_eq_some_iff.mp ht
    exact ⟨rfl, rfl⟩
  | block =>
    obtain ⟨t, ht, rfl⟩ := sessionNext_block_iff.mp h
    exact ⟨step_config ht, step_mode ht⟩
  | take =>
    obtain ⟨r, t, agent, cmd, ht, -, rfl⟩ := sessionNext_take_iff.mp h
    obtain ⟨-, rfl⟩ := takeResponse_eq_some_iff.mp ht
    exact ⟨rfl, rfl⟩
  | reset c => exact absurd rfl (hreset c)

end Sys2Proof.Machine
end

section
/-! SUPPORT. Decoding and encoding are inverse, and the length decoder agrees with the operand decoder
(spec/30_encoding.md R71 to R79). -/

namespace Sys2Proof

open Machine

/-- Settles O1: opcode by opcode, the layout's length operand is the one its decoder asks for. -/
theorem decodeOfEncodeIsIdentity : Obligations.DecodeOfEncodeIsIdentity := fun _ => decode_encode_of_wf

/-- A string accepted under a length condition `fits` that makes `i` a well-formed command with those bytes. -/
theorem encode_of_accepted {cmd : List Byte} {i j : Instr} {fits : Prop} [Decidable fits]
    (hdecode : decode cmd = if fits then .ok i else .error .malformed) (hbytes : fits → i.wf = true ∧ encode i = cmd)
    (h : decode cmd = .ok j) : j.wf = true ∧ encode j = cmd := by
  rw [hdecode] at h
  split_ifs at h with hfits
  cases h
  exact hbytes hfits

/-- ENCODE's count and groups are those of the records read from them (R73). -/
theorem encode_recordsOf {type n : Byte} {groups : List Byte} (h : groups.length = 3 * n.toNat) :
    encode (.encode type (recordsOf groups)) = 3#8 :: type :: n :: groups := by
  obtain ⟨hgroups, hcount⟩ := flatMap_pack_recordsOf n.toNat groups h
  simp [encode, opcodeByte, hgroups, hcount]

/-- DECODE's length operand is the length of its buffer (R74). -/
theorem encode_buffer {hi lo : Byte} {buffer : List Byte} (h : buffer.length = (joinBytes hi lo).toNat) :
    encode (.decode buffer) = 4#8 :: hi :: lo :: buffer := by
  simp [encode, opcodeByte, h]

/-- LUT_READ has one operand byte (R75). -/
theorem decode_lutRead_eq (operands : List Byte) :
    decode (5#8 :: operands) =
      if operands.length = 1 then .ok (.lutRead (operands.headD 0)) else .error .malformed := by
  match operands with
  | [index] => exact decode_lutRead index
  | [] => rfl
  | _ :: _ :: _ => exact (decode_lutRead_wrong (by simp)).trans (if_neg (by simp)).symm

/-- Settles O2: each opcode's decoder keeps every byte of its layout in the operands. -/
theorem encodeOfDecodeIsIdentity : Obligations.EncodeOfDecodeIsIdentity := by
  intro cmd i h
  match cmd with
  | [] => cases decode_nil.symm.trans h
  | op :: operands =>
    obtain rfl | rfl | rfl | rfl | rfl | ⟨-, hnone⟩ := opcode_cases op
    · exact encode_of_accepted (decode_cksum operands) (fun hfits => ⟨beq_of_eq hfits, rfl⟩) h
    · exact encode_of_accepted (decode_verify operands) (fun hfits => ⟨beq_of_eq hfits, rfl⟩) h
    · match operands with
      | [] | [_] => cases (decode_encode_short (by simp)).symm.trans h
      | type :: n :: groups =>
        exact encode_of_accepted (decode_encode type n groups)
          (fun hfits => ⟨wf_encode_recordsOf hfits, encode_recordsOf hfits⟩) h
    · match operands with
      | [] | [_] => cases (decode_decode_short (by simp)).symm.trans h
      | hi :: lo :: buffer =>
        exact encode_of_accepted (decode_decode hi lo buffer)
          (fun hfits => ⟨wf_decode_of_length hfits, encode_buffer hfits⟩) h
    · refine encode_of_accepted (decode_lutRead_eq operands) (fun hfits => ?_) h
      obtain ⟨index, rfl⟩ := List.length_eq_one_iff.mp hfits
      exact ⟨rfl, rfl⟩
    · cases (decode_illegal operands hnone).symm.trans h

/-- `cmdLen` and `decode` agree on a string whose needed length is the one its operands fit. -/
theorem cmdLen_of_need {cmd : List Byte} {i : Instr} {need : Nat} {fits : Prop} [Decidable fits]
    (hneed : cmdNeed cmd = .ok need) (hdecode : decode cmd = if fits then .ok i else .error .malformed)
    (hiff : cmd.length = need ↔ fits) : cmdLen cmd = (decode cmd).map fun _ => cmd.length := by
  rw [cmdLen, hneed, hdecode]
  by_cases hfits : fits
  · simp [hfits, hiff.mpr hfits, Except.map]
  · simp [hfits, mt hiff.mp hfits, Except.map]

/-- `cmdLen` and `decode` agree on a string that both reject before comparing lengths. -/
theorem cmdLen_of_rejected {cmd : List Byte} {e : Rejection} (hneed : cmdNeed cmd = .error e)
    (hdecode : decode cmd = .error e) : cmdLen cmd = (decode cmd).map fun _ => cmd.length := by
  rw [cmdLen, hneed, hdecode]
  rfl

/-- The length decoder of R79 is the operand decoder with the operands forgotten. -/
theorem cmdLen_eq_map_decode (cmd : List Byte) : cmdLen cmd = (decode cmd).map fun _ => cmd.length := by
  match cmd with
  | [] => rfl
  | op :: operands =>
    obtain rfl | rfl | rfl | rfl | rfl | ⟨-, hnone⟩ := opcode_cases op
    · exact cmdLen_of_need rfl (decode_cksum operands) (by simp)
    · exact cmdLen_of_need rfl (decode_verify operands) (by simp)
    · match operands with
      | [] | [_] => rfl
      | type :: n :: groups => exact cmdLen_of_need rfl (decode_encode type n groups) (by simp; omega)
    · match operands with
      | [] | [_] => rfl
      | hi :: lo :: buffer => exact cmdLen_of_need rfl (decode_decode hi lo buffer) (by simp; omega)
    · exact cmdLen_of_need rfl (decode_lutRead_eq operands) (by simp)
    · exact cmdLen_of_rejected (by simp [cmdNeed, hnone]) (decode_illegal operands hnone)

/-- Settles O4: `cmdLen` is `decode` with the operands forgotten, and the statement writes that out. -/
theorem cmdLenAgreesWithDecode : Obligations.CmdLenAgreesWithDecode := by
  intro cmd
  rw [cmdLen_eq_map_decode]
  cases decode cmd <;> rfl

/-- Settles O5: each string against its opcode's decoder; the swapped length asks for 768 bytes. -/
theorem writtenOutCommandsDecode : Obligations.WrittenOutCommandsDecode :=
  ⟨(decode_cksum _).trans (if_pos rfl), (decode_verify _).trans (if_pos rfl),
    (decode_encode _ _ _).trans (if_pos rfl), (decode_decode _ _ _).trans (if_pos rfl), decode_lutRead _,
    (decode_decode _ _ _).trans (if_neg (by decide)), decode_illegal _ rfl⟩

end Sys2Proof
end

section
/-! SUPPORT. What a step does with the ports, what a command that answers can have changed, and the payload of an OK
response (spec/10_state.md R29; spec/30_encoding.md R76; spec/60_exceptions.md R170, R181). -/

namespace Sys2Proof.Machine

/-! The step at the command port. -/

/-- Settles O7: in READY an accepted string that decodes is executed. -/
theorem stepRunsThePresentedCommand : Obligations.StepRunsThePresentedCommand := by
  intro s cmd i hm hc hr hd
  change step s = exec i (accept s)
  simp only [step_accepts hc hr, runCommand, accept_mode, hm, hd]

/-- Settles O8: a step accepts only a presented command, and only with the response port empty. -/
theorem blockWaitsForTheHost : Obligations.BlockWaitsForTheHost := fun _ => step_waits

/-! LUT_READ. -/

/-- Settles O13: the entry's two bytes, and entry 0 of an admitted table is zero. -/
theorem lutReadAnswersTheEntry : Obligations.LutReadAnswersTheEntry := by
  intro s form index hm hf entry
  refine ⟨?_, fun hlut => ?_⟩
  · rw [exec_lutRead index hm hf, highByte_eq, lowByte_eq]
    rfl
  · have hzero : lutRead s.config 0x00 = 0 := hlut.2.1
    rw [exec_lutRead 0x00 hm hf, hzero]
    rfl

/-! What a command that answers has changed. -/

/-- LUT_READ computes no checksum (R110). -/
theorem exec_lutRead_acc {index : Byte} {s t : State} (h : exec (.lutRead index) s = .next t) : t.acc = s.acc := by
  obtain ⟨-, rfl⟩ | ⟨-, form, -, ⟨-, rfl⟩ | ⟨-, rfl⟩⟩ := answering_next h <;> rfl

/-- Settles O32: a command only responds and sets the accumulator, and LUT_READ not even that. -/
theorem commandsChangeOnlyTheResponse : Obligations.CommandsChangeOnlyTheResponse := by
  intro i s t h
  have hacc : (∃ index, i = .lutRead index) → t.acc = s.acc := by
    rintro ⟨index, rfl⟩
    exact exec_lutRead_acc h
  obtain ⟨status, payload, acc, rfl, -, -⟩ := exec_next h
  exact ⟨rfl, rfl, rfl, by simp, hacc⟩

/-! The errors of a command. -/

/-- Every command's meaning is the guard of R180 around a body of its own. -/
theorem exec_eq_answering (i : Instr) (s : State) : ∃ body, exec i s = answering i s body := by
  cases i with
  | cksum | verify | encode | decode | lutRead => exact ⟨_, rfl⟩

/-- A command that answers does so with one status alone, or runs well formed in READY with a legal form. -/
theorem exec_guard {i : Instr} {s t : State} (h : exec i s = .next t) :
    (∃ e, e ≠ .ok ∧ t = raise e s) ∨
      (s.mode = .ready ∧ i.wf = true ∧ ∃ form, configForm s.config = some form) := by
  obtain ⟨body, hbody⟩ := exec_eq_answering i s
  obtain ⟨-, rfl⟩ | ⟨hm, form, hf, ⟨hw, -⟩ | ⟨-, rfl⟩⟩ := answering_next (hbody ▸ h)
  · exact .inl ⟨.fatal, by decide, rfl⟩
  · exact .inr ⟨hm, hw, form, hf⟩
  · exact .inl ⟨.malformedCommand, by decide, rfl⟩

/-- Only a checksum that does not match leaves a trace in the accumulator (R134, R135). -/
theorem exec_of_commandError_of_ne {s : State} {form : CkForm} {i : Instr} {e : Status} (hm : s.mode = .ready)
    (hf : configForm s.config = some form) (hw : i.wf = true) (he : commandError s.config form i = some e)
    (hne : e ≠ .checksumMismatch) : exec i s = .next (raise e s) := by
  cases i with
  | encode type records => exact exec_encode_error hm hf (of_decide_eq_true hw) he
  | decode buf => exact exec_decode_error hm hf (of_decide_eq_true hw) he hne
  | cksum | verify | lutRead => cases he

theorem commandError_ne_ok (c : Configuration) (form : CkForm) (i : Instr) : commandError c form i ≠ some .ok := by
  cases i with
  | encode type records =>
    rw [commandError, encodeError]
    split_ifs <;> decide
  | decode buf =>
    rw [commandError, decodeError]
    split_ifs <;> decide
  | cksum | verify | lutRead => simp [commandError]

/-- `t` is `s` answered: with OK and whatever accumulator a checksum left, or with an error alone, which leaves the
accumulator too unless a checksum did not match (R170). -/
def OkOrError (s t : State) : Prop :=
  (∃ payload acc, t = respond .ok payload (setAcc acc s)) ∨
    ∃ e acc, t = raise e (setAcc acc s) ∧ (e ≠ .checksumMismatch → acc = s.acc)

theorem okOrError_raise (e : Status) (s : State) : OkOrError s (raise e s) := .inr ⟨e, s.acc, rfl, fun _ => rfl⟩

theorem exec_okOrError {i : Instr} {s t : State} (h : exec i s = .next t) : OkOrError s t := by
  obtain ⟨e, -, rfl⟩ | ⟨hm, hw, form, hf⟩ := exec_guard h
  · exact okOrError_raise e s
  cases he : commandError s.config form i with
  | none =>
    obtain ⟨payload, acc, hexec⟩ := exec_of_no_commandError hm hf hw he
    exact .inl ⟨payload, acc, by simpa [h] using hexec⟩
  | some e =>
    obtain rfl | hne := eq_or_ne e .checksumMismatch
    · obtain ⟨acc, hexec⟩ := exec_of_commandError hm hf hw he
      exact .inr ⟨_, acc, by simpa [h] using hexec, fun hne => absurd rfl hne⟩
    · obtain rfl : t = raise e s := by simpa [h] using exec_of_commandError_of_ne hm hf hw he hne
      exact okOrError_raise e s

theorem runCommand_okOrError {cmd : List Byte} {s t : State} (h : runCommand cmd s = .next t) : OkOrError s t := by
  unfold runCommand at h
  split at h
  · cases h; exact okOrError_raise .fatal s
  · split at h
    · cases h; exact okOrError_raise .illegalCommand s
    · cases h; exact okOrError_raise .malformedCommand s
    · exact exec_okOrError h

/-- Settles O33: a step that answers an error only raises it, on the accepted state or on the one whose checksum
did not match. -/
theorem errorsHaveNoOtherEffect : Obligations.ErrorsHaveNoOtherEffect := by
  intro s t code payload hr h ht hcode
  cases hc : s.cmdPort with
  | none =>
    obtain rfl : s = t := by simpa [step_waits (.inl hc)] using h
    simp [hr] at ht
  | some cmd =>
    rw [step_accepts hc hr] at h
    obtain ⟨p, acc, rfl⟩ | ⟨e, acc, rfl, hacc⟩ := runCommand_okOrError h
    · obtain ⟨hok, -⟩ : statusCode .ok = code ∧ p = payload := by simpa using ht
      exact absurd hok.symm hcode
    · obtain ⟨rfl, rfl⟩ : statusCode e = code ∧ [] = payload := by simpa using ht
      exact ⟨rfl, rfl, fun hne => hacc fun he => hne (congrArg statusCode he)⟩

/-! The payload of an OK response. -/

/-- Only OK has the status byte 00 (R171). -/
theorem statusCode_eq_zero_iff (e : Status) : statusCode e = 0x00 ↔ e = .ok := by
  cases e <;> decide

/-- A command that answers OK ran in READY with a legal form, and none of its errors applied. -/
theorem no_commandError_of_ok {i : Instr} {s t : State} {payload : List Byte} (h : exec i s = .next t)
    (ht : t.respPort = some (0x00 :: payload)) :
    s.mode = .ready ∧ i.wf = true ∧ ∃ form, configForm s.config = some form ∧
      commandError s.config form i = none := by
  have not_raise : ∀ e u, e ≠ .ok → t ≠ raise e u := by
    rintro e u hne rfl
    exact hne ((statusCode_eq_zero_iff e).mp (List.cons.inj (Option.some.inj ht)).1)
  obtain ⟨e, hne, hraise⟩ | ⟨hm, hw, form, hf⟩ := exec_guard h
  · exact absurd hraise (not_raise e s hne)
  refine ⟨hm, hw, form, hf, Option.eq_none_iff_forall_ne_some.mpr fun e he => ?_⟩
  obtain ⟨acc, hexec⟩ := exec_of_commandError hm hf hw he
  exact not_raise e _ (fun hok => commandError_ne_ok s.config form i (hok ▸ he)) (by simpa [h] using hexec)

/-- The payload of an OK response is the one the command responds with. -/
theorem payload_of_respond_ok {i : Instr} {s t u : State} {payload p : List Byte} (h : exec i s = .next t)
    (ht : t.respPort = some (0x00 :: payload)) (hexec : exec i s = .next (respond .ok p u)) : payload = p := by
  obtain rfl : t = respond .ok p u := by simpa [h] using hexec
  simpa [statusCode] using ht.symm

theorem verdictByte_eq_or (b : Bool) : [verdictByte b] = [0x00] ∨ [verdictByte b] = [0x01] := by
  cases b <;> decide

/-- DECODE's payload is the type, the count and three bytes for each of at most four used slots (R76). -/
theorem messageBytes_layout (buf : List Byte) :
    ∃ m ≤ 4, byteAt (messageBytes (frameMessage buf)) 1 = BitVec.ofNat 8 m ∧
      (messageBytes (frameMessage buf)).length = 2 + 3 * m := by
  refine ⟨(frameMessage buf).records.length, ?_, rfl, ?_⟩
  · rw [frameMessage_eq]
    exact List.length_filter_le usedRecord (frameSlots buf)
  · simp only [messageBytes, List.length_cons, length_flatMap_pack]
    omega

/-- Settles O34: the payload each command's completion gives, measured. -/
theorem payloadLengthsFollowTheCommand : Obligations.PayloadLengthsFollowTheCommand := by
  intro i s t payload _ h ht
  obtain ⟨hm, hw, form, hf, herr⟩ := no_commandError_of_ok h ht
  cases i with
  | cksum body =>
    obtain rfl := payload_of_respond_ok h ht (exec_cksum hm hf (eq_of_beq hw))
    rfl
  | verify frame =>
    obtain rfl := payload_of_respond_ok h ht (exec_verify hm hf (eq_of_beq hw))
    exact verdictByte_eq_or _
  | encode type records =>
    obtain rfl := payload_of_respond_ok h ht (exec_encode_ok hm hf herr)
    simp [length_frameBody _ _ (length_le_of_encodeError_none herr), ckInputLen]
  | decode buf =>
    obtain rfl := payload_of_respond_ok h ht (exec_decode_ok hm hf (of_decide_eq_true hw) herr)
    exact messageBytes_layout buf
  | lutRead index =>
    obtain rfl := payload_of_respond_ok h ht (exec_lutRead index hm hf)
    rfl

end Sys2Proof.Machine
end

section
/-! SUPPORT. Linearity of an admitted table carries over to the fold and makes CK affine (spec/40_checksum.md R113);
what DE does not read of a buffer (spec/92_eei_decisions.md D8) and a window before a frame
(spec/95_test_vectors.md P2). -/

namespace Sys2Proof.Machine

/-! The fold over an admitted table. -/

/-- Bytewise exclusive OR of two accumulators, at the first one's position (R113). -/
def accXor (a b : ChecksumState) : ChecksumState := ⟨a.c1 ^^^ b.c1, a.c0 ^^^ b.c0, a.pos⟩

theorem lutRead_xor {c : Configuration} (hlut : LutWellFormed c.lut) (i j : Byte) :
    lutRead c (i ^^^ j) = lutRead c i ^^^ lutRead c j := by
  simp only [lutRead, BitVec.toNat_xor]
  exact hlut.2.2 _ _ i.isLt j.isLt

theorem fold_accXor {c : Configuration} (hlut : LutWellFormed c.lut) (a b : ChecksumState) (x y : Byte) :
    fold c (accXor a b) (x ^^^ y) = accXor (fold c a x) (fold c b y) := by
  have hindex : (a.c1 ^^^ b.c1) ^^^ (x ^^^ y) = (a.c1 ^^^ x) ^^^ (b.c1 ^^^ y) := by ac_rfl
  simp only [fold, accXor, hindex, lutRead_xor hlut, lowByte, highByte, BitVec.extractLsb'_xor]
  congr 1
  ac_rfl

theorem xorBytes_cons (u v : Byte) (x y : List Byte) : xorBytes (u :: x) (v :: y) = (u ^^^ v) :: xorBytes x y := rfl

theorem foldl_accXor {c : Configuration} (hlut : LutWellFormed c.lut) (x : List Byte) :
    ∀ (y : List Byte) (a b : ChecksumState), x.length = y.length →
      (xorBytes x y).foldl (fold c) (accXor a b) = accXor (x.foldl (fold c) a) (y.foldl (fold c) b) := by
  induction x with
  | nil =>
    intro y a b h
    obtain rfl := List.length_eq_zero_iff.mp h.symm
    rfl
  | cons u x ih =>
    intro y a b h
    match y, h with
    | v :: y, h =>
      rw [xorBytes_cons, List.foldl_cons, fold_accXor hlut]
      exact ih y _ _ (Nat.succ.inj h)

/-! CK over an admitted table. -/

/-- An accumulator is the sum of three copies of itself. -/
theorem accXor_self_self (a : ChecksumState) : accXor a (accXor a a) = a := by
  simp [accXor]

theorem xorBytes_zeros (x : List Byte) : xorBytes x (List.replicate x.length 0) = x := by
  induction x with
  | nil => rfl
  | cons u x ih =>
    rw [List.length_cons, List.replicate_succ, xorBytes_cons, ih]
    exact congrArg (· :: x) BitVec.xor_zero

/-- Since `y = y + 0` and the start is the sum of three copies of itself, folding `x + y` adds three folds. -/
theorem foldl_xorBytes {c : Configuration} (hlut : LutWellFormed c.lut) {x y : List Byte} (h : x.length = y.length)
    (a : ChecksumState) : (xorBytes x y).foldl (fold c) a =
      accXor (x.foldl (fold c) a)
        (accXor (y.foldl (fold c) a) ((List.replicate y.length 0).foldl (fold c) a)) := by
  calc (xorBytes x y).foldl (fold c) a
      = (xorBytes x (xorBytes y (List.replicate y.length 0))).foldl (fold c) (accXor a (accXor a a)) := by
        rw [xorBytes_zeros, accXor_self_self]
    _ = _ := by
        rw [foldl_accXor hlut _ _ _ _ (by rw [xorBytes_zeros, h]), foldl_accXor hlut _ _ _ _ (by simp)]

theorem ckState_xorBytes {c : Configuration} (hlut : LutWellFormed c.lut) (form : CkForm) {x y : List Byte}
    (h : x.length = y.length) : ckState c form (xorBytes x y) =
      accXor (ckState c form x) (accXor (ckState c form y) (ckState c form (List.replicate y.length 0))) := by
  have hdrop : (xorBytes x y).drop (seed c form).pos =
      xorBytes (x.drop (seed c form).pos) (y.drop (seed c form).pos) := List.drop_zipWith
  rw [ckState, hdrop, foldl_xorBytes hlut (by simp [h]), List.length_drop, ← List.drop_replicate]
  rfl

/-- Settles O21: the fold step adds, and CK of a sum is the sum of the two values of CK and the one on zeros. -/
theorem checksumIsAffine : Obligations.ChecksumIsAffine := by
  intro c hlut
  refine ⟨fun x1 x0 x y1 y0 y p => fold_accXor hlut ⟨x1, x0, p⟩ ⟨y1, y0, p⟩ x y, fun form x y hx hy => ?_⟩
  have hsum := ckState_xorBytes hlut form (hx.trans hy.symm)
  rw [hy] at hsum
  simp only [ck, hsum, accXor, BitVec.xor_assoc]

/-! What DE reads. -/

theorem byteAt_append_left {body rest : List Byte} {k : Nat} (hk : k < body.length) :
    byteAt (body ++ rest) k = byteAt body k := by
  simp [byteAt, List.getElem?_append_left, hk]

/-- A frame's message is read from offsets 0 to 14. -/
theorem frameMessage_append {body : List Byte} (hb : body.length = 15) (rest : List Byte) :
    frameMessage (body ++ rest) = frameMessage body := by
  have hread : ∀ k < 15, byteAt (body ++ rest) k = byteAt body k := fun k hk => byteAt_append_left (hb ▸ hk)
  simp only [frameMessage_eq, frameSlots_eq, slotAt, Nat.reduceMul, Nat.reduceAdd, hread, Nat.reduceLT]

/-- The header is read from offsets 0 and 1. -/
theorem headerOk_append (c : Configuration) {body : List Byte} (hb : body.length = 15) (rest : List Byte) :
    headerOk c (body ++ rest) = headerOk c body := by
  have hread : ∀ k < 15, byteAt (body ++ rest) k = byteAt body k := fun k hk => byteAt_append_left (hb ▸ hk)
  simp only [headerOk, hread, Nat.reduceLT]

/-- Under Bypass DECODE answers a buffer of a frame's length from its body alone. -/
theorem exec_decode_bypass {s : State} {form : CkForm} {body : List Byte} (hm : s.mode = .ready)
    (hf : configForm s.config = some form) (hbypass : s.config.checksumPolicy = .bypass) (hb : body.length = 15)
    (x y : Byte) : exec (.decode (body ++ [x, y])) s =
      .next (if headerOk s.config body then respond .ok (messageBytes (frameMessage body)) s
        else raise .badHeader s) := by
  have hlen : (body ++ [x, y]).length = 17 := by simp [hb]
  have hfolds : decodeFolds s.config (body ++ [x, y]) = false := by simp [decodeFolds, hbypass]
  have hfit : (body ++ [x, y]).length < 2 ^ 16 := hlen ▸ by decide
  by_cases hheader : headerOk s.config body = true
  · have herr : decodeError s.config form (body ++ [x, y]) = none :=
      decodeError_eq_none_iff.mpr ⟨hlen, (headerOk_append _ hb _).trans hheader, by simp [hbypass]⟩
    rw [if_pos hheader, exec_decode_ok hm hf hfit herr, frameMessage_append hb, hfolds]
    rfl
  · have herr : decodeError s.config form (body ++ [x, y]) = some .badHeader := by
      simp [decodeError, frameLen, hlen, headerOk_append _ hb, hheader]
    rw [if_neg hheader]
    exact exec_decode_error hm hf hfit herr (by decide)

/-- Settles O30: both buffers are answered from the same body. -/
theorem bypassIgnoresChecksumBytes : Obligations.BypassIgnoresChecksumBytes := by
  intro s form body x y x' y' hm hf hbypass hb
  rw [exec_decode_bypass hm hf hbypass hb x y, exec_decode_bypass hm hf hbypass hb x' y']

/-- Settles O31: the window has H1 where a frame has H2. -/
theorem windowOneByteEarlyIsBadHeader : Obligations.WindowOneByteEarlyIsBadHeader := by
  intro c form g rest hne hrest
  refine de_badHeader (by simp [hrest]) (Bool.eq_false_iff.mpr fun hheader => ?_)
  exact hne (headerOk_iff.mp hheader).2

end Sys2Proof.Machine
end

section
/-! SUPPORT. The invariant of the block: reset makes it, each step and each host's action keeps it, and a sound block
never stops (spec/10_state.md R25, R27, R29; spec/30_encoding.md R76). -/

namespace Sys2Proof.Machine

theorem inv_resetWith (c : Configuration) : (State.resetWith c).Inv where
  mode_legal := rfl
  pos_range := Nat.zero_le 15
  one_port := .inl rfl
  response := nofun

/-- Settles O36: reset computes MODE from the configuration and empties both ports; `pos` is 0 (log 1). -/
theorem invariantHoldsAtReset : Obligations.InvariantHoldsAtReset := ⟨inv_resetWith defaultConfig, inv_resetWith⟩

/-- An accepted command answered from a sound state leaves a sound one, when the accumulator it leaves is in range. -/
theorem State.Inv.respond {s : State} (hs : s.Inv) {status : Status} {payload : List Byte} {acc : ChecksumState}
    (hpayload : status ≠ .ok → payload = []) (hpos : acc.pos ≤ 15) :
    (respond status payload (setAcc acc (accept s))).Inv where
  mode_legal := hs.mode_legal
  pos_range := hpos
  one_port := .inl rfl
  response := by
    rintro r ⟨⟩
    exact ⟨status, payload, rfl, hpayload⟩

/-- Settles O37: a step waits or responds, and a computed checksum ends at position 15. -/
theorem stepKeepsTheInvariant : Obligations.StepKeepsTheInvariant := by
  intro s t hs h
  obtain ⟨-, rfl⟩ | ⟨cmd, -, -, status, payload, acc, rfl, hpayload, hacc⟩ := step_next h
  · exact hs
  · refine hs.respond hpayload ?_
    obtain rfl | ⟨form, b, -, hb, rfl⟩ := hacc
    · exact hs.pos_range
    · exact (ckState_pos s.config form hb).le

/-- Running command bytes answers when MODE is the one the configuration gives. -/
theorem runCommand_answers_of_mode {s : State} (hmode : s.mode = modeAtReset s.config) (cmd : List Byte) :
    ∃ t, runCommand cmd s = .next t := by
  cases hm : s.mode with
  | fatal => exact ⟨_, runCommand_fatal cmd hm⟩
  | ready =>
    obtain ⟨form, hf⟩ := configForm_of_ready (hmode.symm.trans hm)
    exact runCommand_answers cmd hf

/-- Settles O38: READY by the configuration means a legal form, so a command has its meaning. -/
theorem soundStatesNeverStop : Obligations.SoundStatesNeverStop := by
  intro s hs
  cases hc : s.cmdPort with
  | none => exact ⟨s, step_waits (.inl hc)⟩
  | some cmd =>
    have hr : s.respPort = none := hs.one_port.resolve_left (by simp [hc])
    rw [step_accepts hc hr]
    exact runCommand_answers_of_mode (s := accept s) hs.mode_legal cmd

/-- Presenting a command keeps the block sound. -/
theorem State.Inv.present {s t : State} {cmd : List Byte} (hs : s.Inv) (h : present cmd s = some t) : t.Inv := by
  obtain ⟨-, hr, rfl⟩ := present_eq_some_iff.mp h
  exact ⟨hs.mode_legal, hs.pos_range, .inr hr, hs.response⟩

/-- Taking a response keeps the block sound. -/
theorem State.Inv.takeResponse {s t : State} {r : List Byte} (hs : s.Inv) (h : takeResponse s = some (r, t)) :
    t.Inv := by
  obtain ⟨-, rfl⟩ := takeResponse_eq_some_iff.mp h
  exact ⟨hs.mode_legal, hs.pos_range, .inr rfl, nofun⟩

end Sys2Proof.Machine
end

section
/-! SUPPORT. No answer depends on the accumulator an earlier command left (spec/20_memory.md R51). -/

namespace Sys2Proof.Machine

/-- Both outcomes stop alike, or both go on to states that differ at most in the accumulator. -/
def AgreeUpToAcc : Host.Outcome State Fault Refusal → Host.Outcome State Fault Refusal → Prop
  | .next t, .next u => u = setAcc u.acc t
  | .fault e, .fault f => e = f
  | _, _ => False

/-- The guard reads MODE and the configuration, so it agrees where its body does. -/
theorem answering_agree (i : Instr) (s : State) (acc : ChecksumState) {body body' : CkForm → State}
    (h : ∀ form, body' form = setAcc (body' form).acc (body form)) :
    AgreeUpToAcc (answering i s body) (answering i (setAcc acc s) body') := by
  simp only [answering, setAcc_mode, setAcc_config]
  split
  · rfl
  · rfl
  next form _ _ =>
    split
    · exact h form
    · rfl

/-- Each command's answer is computed from the configuration and its operands. -/
theorem exec_agree (i : Instr) (s : State) (acc : ChecksumState) :
    AgreeUpToAcc (exec i s) (exec i (setAcc acc s)) := by
  cases i with
  | cksum | verify | lutRead => exact answering_agree _ s acc fun _ => rfl
  | encode type records =>
    refine answering_agree _ s acc fun form => ?_
    simp only [setAcc_config]
    cases en s.config form type records <;> rfl
  | decode buf =>
    refine answering_agree _ s acc fun form => ?_
    by_cases hfolds : decodeFolds s.config buf = true
    · simp only [setAcc_config, hfolds, if_true]
      cases de s.config form buf <;> rfl
    · simp only [setAcc_config, hfolds, if_false, Bool.false_eq_true]
      cases de s.config form buf <;> rfl

theorem runCommand_agree (cmd : List Byte) (s : State) (acc : ChecksumState) :
    AgreeUpToAcc (runCommand cmd s) (runCommand cmd (setAcc acc s)) := by
  simp only [runCommand, setAcc_mode]
  split
  · rfl
  · split
    · rfl
    · rfl
    · exact exec_agree _ s acc

/-- Settles O42: waiting keeps the difference, and a command's answer does not read it. -/
theorem answersIgnoreTheAccumulator : Obligations.AnswersIgnoreTheAccumulator := by
  intro s acc
  change AgreeUpToAcc (step s) (step (setAcc acc s))
  cases hc : s.cmdPort with
  | none =>
    rw [step_waits (.inl hc), step_waits (s := setAcc acc s) (.inl hc)]
    rfl
  | some cmd =>
    cases hr : s.respPort with
    | none =>
      rw [step_accepts hc hr, step_accepts (s := setAcc acc s) hc hr]
      exact runCommand_agree cmd (accept s) acc
    | some r =>
      have hwait : s.cmdPort = none ∨ s.respPort ≠ none := .inr (by simp [hr])
      rw [step_waits hwait, step_waits (s := setAcc acc s) hwait]
      rfl

end Sys2Proof.Machine
end

section
/-! SUPPORT. A whole transaction from a sound state, and runs of them
(spec/70_reset_and_hazards.md R207, R211, R212). -/

namespace Sys2Proof.Machine

/-! Presenting to an idle block. -/

theorem idle_of_ports {s : State} (hc : s.cmdPort = none) (hr : s.respPort = none) : s.idle = s := by
  cases s
  simp_all [State.idle]

theorem accept_eq_idle {s : State} (hr : s.respPort = none) : accept s = s.idle := by
  simp [accept, State.idle, hr]

theorem present_of_ports {s : State} (cmd : List Byte) (hc : s.cmdPort = none) (hr : s.respPort = none) :
    present cmd s = some (placeCommand cmd s) :=
  present_eq_some_iff.mpr ⟨hc, hr, by simp [placeCommand, hr]⟩

theorem step_placeCommand (cmd : List Byte) (s : State) : step (placeCommand cmd s) = runCommand cmd s.idle :=
  step_accepts rfl rfl

/-- A command presented to a sound block is answered, and taking the response leaves a sound idle block. -/
theorem step_placeCommand_of_inv {s : State} (hs : s.Inv) (cmd : List Byte) :
    ∃ status payload acc, step (placeCommand cmd s) = .next (respond status payload (setAcc acc s.idle)) ∧
      (setAcc acc s.idle).Inv := by
  have hplaced : (placeCommand cmd s).Inv := ⟨hs.mode_legal, hs.pos_range, .inr rfl, nofun⟩
  obtain ⟨t, ht⟩ := soundStatesNeverStop _ hplaced
  have hinv := stepKeepsTheInvariant _ _ hplaced ht
  obtain ⟨status, payload, acc, rfl, -, -⟩ := runCommand_next ((step_placeCommand cmd s).symm.trans ht)
  exact ⟨status, payload, acc, ht, hinv.takeResponse (takeResponse_eq_some_iff.mpr ⟨rfl, rfl⟩)⟩

/-- A transaction presents, steps once and takes what the step responded. -/
theorem transact_of_step {cmd : List Byte} {s : State} {status : Status} {payload : List Byte} {acc : ChecksumState}
    (h : step (placeCommand cmd s) = .next (respond status payload (setAcc acc s.idle))) :
    transact cmd s.idle = some (statusCode status :: payload, setAcc acc s.idle) := by
  have hpresent : present cmd s.idle = some (placeCommand cmd s) := present_of_ports cmd rfl rfl
  simp only [transact, hpresent, h]
  rfl

/-- Settles O43: present, step, take, each by its own rule. -/
theorem everyCommandIsAnsweredInOneStep : Obligations.EveryCommandIsAnsweredInOneStep := by
  intro s cmd hs hc hr
  obtain ⟨status, payload, acc, hstep, hinv⟩ := step_placeCommand_of_inv hs cmd
  have htransact := transact_of_step hstep
  rw [idle_of_ports hc hr] at htransact
  exact ⟨_, _, _, present_of_ports cmd hc hr, hstep, rfl, rfl, _, htransact, hc, hr, idle_of_ports hc hr ▸ hinv⟩

/-! The response a command gets alone. -/

theorem responseAlone_of_step {cmd : List Byte} {s : State} {status : Status} {payload : List Byte}
    {acc : ChecksumState} (h : step (placeCommand cmd s) = .next (respond status payload (setAcc acc s.idle))) :
    responseAlone cmd s.idle = some (statusCode status :: payload) := by
  rw [responseAlone, transact_of_step h]
  rfl

/-- The response a command gets alone does not depend on the accumulator (R51). -/
theorem responseAlone_setAcc {s : State} (hs : s.Inv) (cmd : List Byte) {acc : ChecksumState}
    (hpos : acc.pos ≤ 15) : responseAlone cmd (setAcc acc s.idle) = responseAlone cmd s.idle := by
  have hs' : (setAcc acc s).Inv := ⟨hs.mode_legal, hpos, hs.one_port, hs.response⟩
  obtain ⟨status, payload, a, hstep, -⟩ := step_placeCommand_of_inv hs cmd
  obtain ⟨status', payload', a', hstep', -⟩ := step_placeCommand_of_inv hs' cmd
  have hagree : AgreeUpToAcc (step (placeCommand cmd s)) (step (placeCommand cmd (setAcc acc s))) :=
    answersIgnoreTheAccumulator (placeCommand cmd s) acc
  rw [hstep, hstep'] at hagree
  have hresponse : some (statusCode status' :: payload') = some (statusCode status :: payload) :=
    congrArg State.respPort hagree
  rw [responseAlone_of_step hstep, ← hresponse]
  exact responseAlone_of_step hstep'

/-- Settles O44: each transaction leaves the block as it was but for the accumulator, which no later answer reads. -/
theorem runsAnswerEachCommandAsAlone : Obligations.RunsAnswerEachCommandAsAlone := by
  intro cmds
  induction cmds with
  | nil => exact fun s _ _ _ => ⟨[], s, rfl, rfl, by simp, rfl⟩
  | cons cmd cmds ih =>
    intro s hs hc hr
    obtain ⟨status, payload, acc, hstep, hinv⟩ := step_placeCommand_of_inv hs cmd
    have halone := responseAlone_of_step hstep
    have hsame : ∀ c, responseAlone c (setAcc acc s.idle) = responseAlone c s.idle :=
      fun c => responseAlone_setAcc hs c hinv.pos_range
    have htransact := transact_of_step hstep
    rw [idle_of_ports hc hr] at htransact hinv halone hsame
    obtain ⟨log, t, hrun, hcmds, hlog, ht⟩ := ih (setAcc acc s) hinv hc hr
    refine ⟨(cmd, statusCode status :: payload) :: log, t, by simp only [transactAll, htransact, hrun],
      by rw [List.map_cons, hcmds], ?_, ht⟩
    rintro p (_ | ⟨_, hp⟩)
    · exact halone
    · rw [← hsame]
      exact hlog p hp

end Sys2Proof.Machine
end

section
/-! SUPPORT. Sessions: every event keeps them sound, and each command gets the response it gets alone
(spec/20_memory.md R51; spec/60_exceptions.md R182, R185, R195). -/

namespace Sys2Proof.Machine

/-! Soundness, event by event. -/

/-- After a reset nothing is in flight and the block is sound (R200). -/
theorem session_inv_reset (c : Configuration) (log : List Exchange) : Session.Inv ⟨State.resetWith c, none, log⟩ where
  block := inv_resetWith c
  quiet := fun _ => ⟨rfl, rfl⟩
  answered := nofun

variable {σ : Session} {t : State}

theorem session_inv_present {agent : Nat} {cmd : List Byte} (hσ : σ.Inv) (h : present cmd σ.block = some t) :
    Session.Inv { σ with block := t, inFlight := some (agent, cmd) } where
  block := hσ.block.present h
  quiet := nofun
  answered := by
    rintro _ _ ⟨⟩
    obtain ⟨-, hr, rfl⟩ := present_eq_some_iff.mp h
    exact .inl ⟨rfl, hr⟩

/-- The step answers the command in flight as it would be answered alone (R51). -/
theorem session_inv_block (hσ : σ.Inv) (h : step σ.block = .next t) : Session.Inv { σ with block := t } := by
  have hinv : t.Inv := stepKeepsTheInvariant _ _ hσ.block h
  obtain ⟨-, rfl⟩ | ⟨cmd, hc, hr, status, payload, acc, rfl, -, -⟩ := step_next h
  · exact hσ
  refine ⟨hinv, fun hidle => ?_, fun agent cmd' hflight => .inr ⟨rfl, _, rfl, ?_⟩⟩
  · exact absurd (hσ.quiet hidle).1 (by simp [hc])
  · have hflying : σ.block.cmdPort = some cmd' :=
      (hσ.answered agent cmd' hflight).elim And.left fun ⟨hempty, _⟩ => by simp [hc] at hempty
    obtain rfl : cmd = cmd' := Option.some.inj (hc.symm.trans hflying)
    refine (responseAlone_setAcc hσ.block cmd (acc := acc) hinv.pos_range).trans ?_
    rw [step_accepts hc hr, accept_eq_idle hr] at h
    exact responseAlone_of_step ((step_placeCommand cmd σ.block).trans h)

/-- A response waits only with the command port empty, so taking it leaves both ports empty (R29). -/
theorem session_inv_take {r : List Byte} {log : List Exchange} (hσ : σ.Inv)
    (h : takeResponse σ.block = some (r, t)) : Session.Inv ⟨t, none, log⟩ where
  block := hσ.block.takeResponse h
  quiet := fun _ => by
    obtain ⟨hr, rfl⟩ := takeResponse_eq_some_iff.mp h
    exact ⟨hσ.block.one_port.resolve_right (by simp [hr]), rfl⟩
  answered := nofun

theorem session_inv_next {e : Event} {τ : Session} (hσ : σ.Inv) (h : sessionNext e σ = some τ) : τ.Inv := by
  cases e with
  | present agent cmd =>
    obtain ⟨t, ht, rfl⟩ := sessionNext_present_iff.mp h
    exact session_inv_present hσ ht
  | block =>
    obtain ⟨t, ht, rfl⟩ := sessionNext_block_iff.mp h
    exact session_inv_block hσ ht
  | take =>
    obtain ⟨r, t, agent, cmd, ht, -, rfl⟩ := sessionNext_take_iff.mp h
    exact session_inv_take hσ ht
  | reset c =>
    cases h
    exact session_inv_reset c σ.log

/-- Settles O46: a session starts as after a reset (`pos` by log 1), and each event keeps it sound. -/
theorem everyEventKeepsTheSessionSound : Obligations.EveryEventKeepsTheSessionSound :=
  ⟨fun c => session_inv_reset c [], fun _ _ _ => session_inv_next⟩

/-- Settles O47: the reset event is `resetWith` with nothing in flight. -/
theorem resetDiscardsThePresentedCommand : Obligations.ResetDiscardsThePresentedCommand :=
  fun _ _ => ⟨_, rfl, rfl, rfl, rfl, rfl⟩

/-! Schedules without a reset. -/

/-- Each exchange holds the response its command gets alone from `s` made idle. -/
def AnsweredAlone (s : State) (log : List Exchange) : Prop :=
  ∀ e ∈ log, responseAlone e.command s.idle = some e.response

/-- No event but a reset changes the idle block, up to the accumulator. -/
theorem sessionNext_idle {e : Event} {τ : Session} (h : sessionNext e σ = some τ) (hreset : ∀ c, e ≠ .reset c) :
    τ.block.idle = setAcc τ.block.acc σ.block.idle := by
  cases e with
  | present agent cmd =>
    obtain ⟨t, ht, rfl⟩ := sessionNext_present_iff.mp h
    obtain ⟨-, -, rfl⟩ := present_eq_some_iff.mp ht
    rfl
  | block =>
    obtain ⟨t, ht, rfl⟩ := sessionNext_block_iff.mp h
    obtain ⟨-, rfl⟩ | ⟨cmd, -, -, status, payload, acc, rfl, -, -⟩ := step_next ht <;> rfl
  | take =>
    obtain ⟨r, t, agent, cmd, ht, -, rfl⟩ := sessionNext_take_iff.mp h
    obtain ⟨-, rfl⟩ := takeResponse_eq_some_iff.mp ht
    rfl
  | reset c => exact absurd rfl (hreset c)

/-- An event of a sound session adds to the observation at most the command in flight with its own response. -/
theorem sessionNext_log {e : Event} {τ : Session} (hσ : σ.Inv) (h : sessionNext e σ = some τ) :
    ∃ new, τ.log = σ.log ++ new ∧ AnsweredAlone σ.block new := by
  have silent : ∀ log, log = σ.log → ∃ new, log = σ.log ++ new ∧ AnsweredAlone σ.block new :=
    fun log hlog => ⟨[], by simp [hlog], by simp [AnsweredAlone]⟩
  cases e with
  | present agent cmd =>
    obtain ⟨t, -, rfl⟩ := sessionNext_present_iff.mp h
    exact silent _ rfl
  | block =>
    obtain ⟨t, -, rfl⟩ := sessionNext_block_iff.mp h
    exact silent _ rfl
  | take =>
    obtain ⟨r, t, agent, cmd, ht, hflight, rfl⟩ := sessionNext_take_iff.mp h
    obtain ⟨hr, -⟩ := takeResponse_eq_some_iff.mp ht
    obtain ⟨-, hempty⟩ | ⟨-, r', hr', halone⟩ := hσ.answered agent cmd hflight
    · simp [hr] at hempty
    · obtain rfl : r = r' := by simpa [hr] using hr'
      exact ⟨_, rfl, by simpa [AnsweredAlone] using halone⟩
  | reset c =>
    cases h
    exact silent _ rfl

theorem sessionRun_cons {e : Event} {events : List Event} {τ : Session} (h : sessionRun (e :: events) σ = some τ) :
    ∃ ρ, sessionNext e σ = some ρ ∧ sessionRun events ρ = some τ := by
  cases hnext : sessionNext e σ with
  | none => simp [sessionRun, hnext] at h
  | some ρ => exact ⟨ρ, rfl, by simpa [sessionRun, hnext] using h⟩

/-- What is answered alone after an event that is no reset is answered alone before it. -/
theorem answeredAlone_of_sessionNext {e : Event} {τ : Session} {log : List Exchange} (hσ : σ.Inv)
    (h : sessionNext e σ = some τ) (hreset : ∀ c, e ≠ .reset c) (hlog : AnsweredAlone τ.block log) :
    AnsweredAlone σ.block log := by
  intro x hx
  rw [← hlog x hx, sessionNext_idle h hreset]
  exact (responseAlone_setAcc hσ.block x.command (session_inv_next hσ h).block.pos_range).symm

/-- Settles O45, by induction on the schedule: each event adds only what is answered alone, and changes the idle block
at most in the accumulator. -/
theorem everyInterleavingAnswersAsAlone : Obligations.EveryInterleavingAnswersAsAlone := by
  intro events
  induction events with
  | nil =>
    rintro σ τ - ⟨⟩ -
    exact ⟨[], by simp, by simp⟩
  | cons e events ih =>
    intro σ τ hσ hrun hreset
    obtain ⟨ρ, hnext, hrest⟩ := sessionRun_cons hrun
    have he : ∀ c, e ≠ .reset c := fun c hc => hreset c (hc ▸ List.mem_cons_self)
    obtain ⟨added, hadded, halone⟩ := sessionNext_log hσ hnext
    obtain ⟨new, hnew, hlater⟩ :=
      ih ρ τ (session_inv_next hσ hnext) hrest fun c hc => hreset c (List.mem_cons_of_mem e hc)
    have hlater' : AnsweredAlone σ.block new := answeredAlone_of_sessionNext hσ hnext he hlater
    refine ⟨added ++ new, by rw [hnew, hadded, List.append_assoc], fun x hx => ?_⟩
    exact (List.mem_append.mp hx).elim (halone x) (hlater' x)

end Sys2Proof.Machine
end
